-- ==== Sys2Proof/Word.lean ====
section
/-! DEFINITION. The bit-vector types of the block: the command word, the byte and the address (rules R7, R9, R52). -/

namespace Sys2Proof

/-- One 32-bit command word, bit 0 least significant (rules R9, R52). -/
abbrev Word := BitVec 32

/-- One byte of data, lines D7..D0, unsigned (rules R7, R9: DATA_W is 8). -/
abbrev Byte := BitVec 8

/-- One SRAM address, unsigned (rule R7: ADDR_W is 16). -/
abbrev Addr := BitVec 16

end Sys2Proof
end

