-- ==== Sys2Proof/Syntax.lean ====
section
/-! DEFINITION. The nine commands (rules R51, R54), and the assembly lines that stand for them (rules R58, R59). -/

namespace Sys2Proof

/-- The commands of SRAMC-CMD v1, one constructor per row of the opcode map (rules R51, R54). -/
inductive Instr where
  /-- DELAY (rule R83). -/
  | delay
  /-- SELECT (rule R76). -/
  | select
  /-- DESELECT (rule R77). -/
  | deselect
  /-- DIR_IN (rule R72). -/
  | dirIn
  /-- DIR_OUT (rule R73). -/
  | dirOut
  /-- SETADDR addr, oe (rule R68); `oe = true` means output enabled. -/
  | setAddr (addr : Addr) (oe : Bool)
  /-- SAMPLE (rule R74). -/
  | sample
  /-- READ addr (rule R81). -/
  | read (addr : Addr)
  /-- WRITE addr, data (rule R82). -/
  | write (addr : Addr) (data : Byte)
deriving DecidableEq, Repr

/-- One line of assembly as it is written: a mnemonic of rule R58 or a pseudo-command of rule R59, with its operands as the
numbers that stand in the text, which may be out of range. -/
inductive SourceLine where
  | delay
  | select
  | deselect
  | dirIn
  | dirOut
  | setAddr (addr oe : Nat)
  | sample
  | read (addr : Nat)
  | write (addr data : Nat)
  | nop
  | oeOff (addr : Nat)
  | safeDirOut (addr : Nat)
  | openRead
  | openWrite (addr : Nat)
  | close
deriving DecidableEq, Repr

end Sys2Proof
end

