-- ==== Sys2Proof/WellFormed.lean ====
section
/-! DEFINITION. Which instructions and which assembly lines are well formed (rules R35, R53, R58). -/

namespace Sys2Proof

/-- An address operand as written: 0 to 0xFFFF (rule R58). -/
def addrInRange (n : Nat) : Bool := decide (n ≤ 0xFFFF)

/-- A data operand as written: 0 to 0xFF (rule R58). -/
def dataInRange (n : Nat) : Bool := decide (n ≤ 0xFF)

/-- An oe operand as written: 0 or 1 (rule R58). -/
def oeInRange (n : Nat) : Bool := decide (n ≤ 1)

/-- A line is well formed when each operand is in the range its form gives it; otherwise it is an assembly error, not a command
(rule R58). -/
def SourceLine.wellFormed : SourceLine → Bool
  | .delay | .select | .deselect | .dirIn | .dirOut | .sample | .nop | .openRead | .close => true
  | .setAddr a oe => addrInRange a && oeInRange oe
  | .read a => addrInRange a
  | .write a d => addrInRange a && dataInRange d
  | .oeOff a => addrInRange a
  | .safeDirOut a => addrInRange a
  | .openWrite a => addrInRange a

/-- The same ranges for an instruction. Its operand TYPES already hold them (a 16-bit address, an 8-bit byte, a boolean), so no
instruction fails: no command can name an address outside 0..65535 (rule R35). -/
def Instr.wellFormed : Instr → Bool
  | .delay | .select | .deselect | .dirIn | .dirOut | .sample => true
  | .setAddr a oe => addrInRange a.toNat && oeInRange oe.toNat
  | .read a => addrInRange a.toNat
  | .write a d => addrInRange a.toNat && dataInRange d.toNat

end Sys2Proof
end

