-- ==== Sys2Proof/Decode.lean ====
section
/-! DEFINITION. The command encoding: fields, opcode map, total decoder, encoder (rules R52 to R57). -/

namespace Sys2Proof

/-- OP, bits 31:28 (rule R52). -/
def fieldOp (w : Word) : BitVec 4 := w.extractLsb' 28 4

/-- RSV, bits 27:25 (rule R52). -/
def fieldRsv (w : Word) : BitVec 3 := w.extractLsb' 25 3

/-- F, bit 24; for SETADDR it is oe (rules R52, R53). -/
def fieldF (w : Word) : Bool := w.getLsbD 24

/-- DATA, bits 23:16 (rules R52, R53). -/
def fieldData (w : Word) : Byte := w.extractLsb' 16 8

/-- ADDR, bits 15:0 (rules R52, R53). -/
def fieldAddr (w : Word) : Addr := w.extractLsb' 0 16

/-- One row of the opcode map of rule R54: the bits that must match, their values, and the command built from the operand fields. -/
structure Row where
  mask : Word
  value : Word
  build : Word → Instr

/-- The opcode map, row by row in the order of rule R54. -/
def opcodeMap : List Row :=
  [ { mask := 0xFFFFFFFF#32, value := 0x00000000#32, build := fun _ => .delay },
    { mask := 0xFFFFFFFF#32, value := 0x10000000#32, build := fun _ => .select },
    { mask := 0xFFFFFFFF#32, value := 0x20000000#32, build := fun _ => .deselect },
    { mask := 0xFFFFFFFF#32, value := 0x30000000#32, build := fun _ => .dirIn },
    { mask := 0xFFFFFFFF#32, value := 0x40000000#32, build := fun _ => .dirOut },
    { mask := 0xFEFF0000#32, value := 0x50000000#32, build := fun w => .setAddr (fieldAddr w) (fieldF w) },
    { mask := 0xFFFFFFFF#32, value := 0x60000000#32, build := fun _ => .sample },
    { mask := 0xFFFF0000#32, value := 0x70000000#32, build := fun w => .read (fieldAddr w) },
    { mask := 0xFF000000#32, value := 0x80000000#32, build := fun w => .write (fieldAddr w) (fieldData w) } ]

/-- A row matches a word when the masked bits have the row's values (rule R55). -/
def Row.hits (r : Row) (w : Word) : Bool := w &&& r.mask == r.value

/-- Why a word is Illegal (rule R56). -/
inductive IllegalWord where
  /-- OP is 0x9 to 0xF. -/
  | reservedOpcode
  /-- OP is 0x0 to 0x8 and a reserved or unused bit is nonzero. -/
  | unusedBitSet
deriving DecidableEq, Repr

/-- What a command word decodes to (rule R55). -/
inductive Decoded where
  | instr (i : Instr)
  | illegal (why : IllegalWord)
deriving DecidableEq, Repr

/-- Rule R55: the first row of the map that matches decides; a word that no row matches is Illegal. Total on all 2^32 words. -/
def decode (w : Word) : Decoded :=
  match opcodeMap.find? (fun r => r.hits w) with
  | some r => .instr (r.build w)
  | none => .illegal (if 9#4 ≤ fieldOp w then .reservedOpcode else .unusedBitSet)

/-- The word with the given fields, RSV zero: `oooo rrr f dddddddd aaaaaaaaaaaaaaaa` (rule R52). -/
def assembleWord (op : BitVec 4) (f : Bool) (data : Byte) (addr : Addr) : Word :=
  op ++ 0#3 ++ BitVec.ofBool f ++ data ++ addr

/-- The command word of an instruction, every unused field zero (rules R52, R54). -/
def encode : Instr → Word
  | .delay => assembleWord 0x0#4 false 0#8 0#16
  | .select => assembleWord 0x1#4 false 0#8 0#16
  | .deselect => assembleWord 0x2#4 false 0#8 0#16
  | .dirIn => assembleWord 0x3#4 false 0#8 0#16
  | .dirOut => assembleWord 0x4#4 false 0#8 0#16
  | .setAddr a oe => assembleWord 0x5#4 oe 0#8 a
  | .sample => assembleWord 0x6#4 false 0#8 0#16
  | .read a => assembleWord 0x7#4 false 0#8 a
  | .write a d => assembleWord 0x8#4 false d a

/-- The command word whose bits are the low `nbits` of `w`. A command is one 32-bit word on a parallel port, so the table's bit
numbers are the word's own and no byte order enters (rules R32, R52, R57). -/
def tableWord (nbits w : Nat) : Word := BitVec.ofNat 32 (w % 2 ^ nbits)

/-- The instruction the decoder reads from the table's bits `w`. -/
def decodeTableWord (nbits w : Nat) : Option Instr :=
  match decode (tableWord nbits w) with
  | .instr i => some i
  | .illegal _ => none

end Sys2Proof
end

