-- ==== Sys2Proof/Config.lean ====
section
/-! DEFINITION. The open parameters of rule R8, as plain data, and the free values (draws) of rule R11. -/

namespace Sys2Proof

/-- The open parameters of rule R8.
The model takes each as an argument: State holds one `Params`, which no step changes, so a statement about every state is a
statement about every choice of the parameters (log entry 3). -/
structure Params where
  /-- CONTENTION_IS_FAULT: whether bus contention records a model fault (rules R8, R40). -/
  contentionIsFault : Bool
  /-- EXTERNAL_MASTER: whether other hardware may change the SRAM while the chip is deselected (rules R8, R46). -/
  externalMaster : Bool
  /-- T_SETTLE: the minimum time of one `Settle()`, in a unit of time the spec leaves open. Positive; no rule of the model's step
  depends on it (rules R8, R104, R106). -/
  tSettle : Nat
deriving DecidableEq, Repr

/-- The values rule R8 allows: T_SETTLE is a positive duration, and the two others are any truth value. -/
def Params.allowed (p : Params) : Bool := decide (0 < p.tSettle)

/-- The defaults of rule R8. T_SETTLE has none there: 1 is a DESIGN CHOICE (log entry 3). -/
def Config.defaults : Params := { contentionIsFault := true, externalMaster := true, tSettle := 1 }

/-- FREE VALUE. The k-th draw `any8` of rules R11 and R39. It has no body, so nothing can be proved of its value: a statement
that holds of it holds for all 256 values (rule R107). Each evaluation that yields `any8` uses the next k (log entry 4). -/
opaque Config.freeByte : Nat → Byte

end Sys2Proof
end

