-- ==== Sys2Proof/Machine/State.lean ====
section
/-! DEFINITION. Everything the spec gives the block as state (rules R16 to R33), plain data, and the state after reset. -/

namespace Sys2Proof.Machine

/-- DIR: the data-bus direction mux (rule R18). -/
inductive Dir where
  /-- In: the controller drives none of D[7:0]. -/
  | input
  /-- Out: the controller drives all eight lines with DOUT. -/
  | output
deriving DecidableEq, Repr

/-- WE_MODE: whether the controller drives the write-enable line (rule R20). -/
inductive WeMode where
  | driven
  | released
deriving DecidableEq, Repr

/-- SEQ: the sequencer state (rule R25). -/
inductive Seq where
  | idle
  | busy
deriving DecidableEq, Repr

/-- The six control and serial pins the controller drives one at a time (rules R11, R31). -/
inductive Pin where
  | ser
  | sclk
  | rclk
  | oeN
  | csN
  | weN
deriving DecidableEq, Repr

/-- The level of a pin: 0, 1, or Z, not driven by the controller (rule R10). -/
inductive Level where
  | low
  | high
  | z
deriving DecidableEq, Repr

/-- The model faults of rule R86, in the order of rule R88. -/
inductive FaultCode where
  | illegalCommand
  | notSelected
  | directionMismatch
  | busContention
deriving DecidableEq, Repr

/-- A set of fault codes, one truth value for each code, so that equal sets are equal data (rule R28). -/
structure FaultSet where
  illegalCommand : Bool
  notSelected : Bool
  directionMismatch : Bool
  busContention : Bool
deriving DecidableEq, Repr

/-- The record of rule R28: model bookkeeping, not hardware state. -/
structure FaultRecord where
  /-- FAULTS. -/
  faults : FaultSet
  /-- FIRST_FAULT. -/
  first : Option FaultCode
  /-- FAULT_CMD: the command word that first raised a fault. -/
  cmd : Option Word
deriving DecidableEq, Repr

/-- One entry of the pin-event trace (rules R12, R13, R40, R103). Model bookkeeping, not hardware state (log entry 12). -/
inductive Event where
  /-- A pin changed to this level. A pin driven to the level it has makes no entry (rule R12). -/
  | pin (p : Pin) (v : Level)
  /-- The address pins changed to this address, at the latch (rules R17, R61). -/
  | address (a : Addr)
  /-- What the controller puts on D[7:0] changed: `none` while DIR = In, else DOUT (rules R18, R70). -/
  | data (b : Option Byte)
  /-- One `Settle()` (rule R11). -/
  | settle
  /-- The SRAM committed a write (rule R37). -/
  | commit (a : Addr) (b : Byte)
  /-- The SRAM cell was lost to a draw under a condition of rule R38. -/
  | lost (a : Addr) (b : Byte)
  /-- The CONTENTION event of rule R40. -/
  | contention
  /-- The reset event of rule R97. -/
  | reset
deriving DecidableEq, Repr

/-- The SRAM array M (rules R29, R34): the cells that hold something else than an unlisted cell does, by rising address.
Read and written only through Memory.read and Memory.write, which keep the canonical form Memory.wf. -/
abbrev Memory := List Host.Cell

/-- The pin drivers: what the controller puts on its pins. A level is a Bool: false is 0 and true is 1 (rule R10). -/
structure Pins where
  /-- CS_n, always driven; 0 means selected (rule R21). -/
  csN : Bool
  /-- WE_MODE (rule R20). -/
  weMode : WeMode
  /-- WE_LVL (rule R20). -/
  weLvl : Bool
  /-- OE_n, always driven; 0 means enabled (rule R22). -/
  oeN : Bool
  /-- DIR (rule R18). -/
  dir : Dir
  /-- SER (rule R23). -/
  ser : Bool
  /-- SCLK (rule R23). -/
  sclk : Bool
  /-- RCLK (rule R23). -/
  rclk : Bool
deriving DecidableEq, Repr

/-- The registers. -/
structure Regs where
  /-- SR, the shift register; SR[7:0] is the first stage (rule R16). -/
  sr : BitVec 16
  /-- AL, the address latch, which drives A[15:0] (rule R17). -/
  al : Addr
  /-- DOUT, the data output register (rule R19). -/
  dout : Byte
  /-- RDATA, the response register, which RSP_DATA carries at a completion (rules R24, R32). -/
  rdata : Byte
deriving DecidableEq, Repr

/-- The values a reset leaves unspecified (rules R33, R97): the draws of one reset event, chosen by the environment.
`cells` gives any contents of M: a cell it does not list holds the unlisted byte, and the last entry for an address counts. -/
structure ResetDraws where
  regs : Regs
  cells : List (Addr × Byte)
deriving DecidableEq, Repr

/-- What the world outside the block does next (rules R32, R46, R93, R97). -/
inductive Input where
  /-- The host holds this word on CMD with CMD_VALID = 1 (rule R32). -/
  | command (w : Word)
  /-- The external master asks for its step `ExtWrite(a, v)` (rule R46). -/
  | extWrite (a : Addr) (v : Byte)
  /-- The reset event, with the values it draws (rule R97). -/
  | reset (d : ResetDraws)
deriving DecidableEq, Repr

/-- The machine. -/
structure State where
  /-- The open parameters of rule R8; no step changes them. -/
  params : Params
  /-- SEQ (rule R25). CMD_READY = 1 exactly when it is idle (rule R32). -/
  seq : Seq
  /-- CS_n, WE_MODE, WE_LVL, OE_n, DIR, SER, SCLK, RCLK (rules R18, R20 to R23). -/
  pins : Pins
  /-- SR, AL, DOUT, RDATA (rules R16, R17, R19, R24). -/
  regs : Regs
  /-- RSP_VALID (rule R32): raised by the completion of a SAMPLE or READ, low again from the next acceptance on
  (log entry 13). -/
  rspValid : Bool
  /-- M, the SRAM array (rule R29). -/
  mem : Memory
  /-- FAULTS, FIRST_FAULT, FAULT_CMD (rule R28). -/
  record : FaultRecord
  /-- What the outside world will do, next first: the command stream with the external master's steps and the resets between. -/
  inputs : List Input
  /-- The responses delivered so far, oldest first (rule R107). Model bookkeeping. -/
  responses : List Byte
  /-- The pin-event trace, NEWEST FIRST (rule R13). Model bookkeeping. -/
  trace : List Event
  /-- How many draws have been taken: the model's own field, which makes each draw a fresh one (log entry 4). -/
  draws : Nat
deriving DecidableEq, Repr

/-- Why the machine stops. The block itself raises nothing (rule R84): the model faults of rule R86 are recorded in the state,
and the machine goes on. -/
inductive Fault where
  /-- Raised by `step` alone, in a state with SEQ = Busy. A command runs within one step (rules R13, R79), so no run stands there
  between steps, and the rest of the command that would be running is not in the state (log entry 8). Safe. -/
  | commandInProgress
deriving DecidableEq, Repr

/-- Why an instruction has no meaning. -/
inductive Refusal where
  /-- Raised by an arm of `exec` for an instruction that is not modelled yet. Safe. No arm raises it now. -/
  | notModelled (mnemonic : String)
deriving DecidableEq, Repr

/-- FAULTS = ∅ (rule R28). -/
def FaultSet.empty : FaultSet :=
  { illegalCommand := false, notSelected := false, directionMismatch := false, busContention := false }

/-- The record at reset: empty, none, none (rules R28, R33). -/
def FaultRecord.empty : FaultRecord := { faults := FaultSet.empty, first := none, cmd := none }

/-- The pin drivers at reset: deselected, WE_n released, OE_n = 1, DIR = In, serial lines 0 (rule R33). -/
def Pins.reset : Pins :=
  { csN := true, weMode := .released, weLvl := true, oeN := true, dir := .input, ser := false, sclk := false, rclk := false }

/-- The machine right after its first reset (rule R33), with no input waiting.
SR, AL, DOUT, RDATA and M are draws there; this state is the one where each of them drew 0 (DESIGN CHOICE, log entry 1), and
`State.afterReset` in Machine/HostPort.lean is the reset with any draws. -/
def State.reset : State :=
  { params := Config.defaults
    seq := .idle
    pins := Pins.reset
    regs := { sr := 0#16, al := 0#16, dout := 0#8, rdata := 0#8 }
    rspValid := false
    mem := []
    record := FaultRecord.empty
    inputs := []
    responses := []
    trace := []
    draws := 0 }

end Sys2Proof.Machine
end

