-- ==== Sys2Proof/Machine/Flags.lean ====
section
/-! DEFINITION. The block has no flags ("Flags written: none" in every command rule). Its only status is the fault record of
rules R28, R86 and R87, whose computation this file gives. -/

namespace Sys2Proof.Machine

/-- The number of a fault code (rule R86). -/
def FaultCode.number : FaultCode → Nat
  | .illegalCommand => 1
  | .notSelected => 2
  | .directionMismatch => 3
  | .busContention => 4

/-- `code ∈ FAULTS`. -/
def FaultSet.has (f : FaultSet) : FaultCode → Bool
  | .illegalCommand => f.illegalCommand
  | .notSelected => f.notSelected
  | .directionMismatch => f.directionMismatch
  | .busContention => f.busContention

/-- `FAULTS ∪ {code}`. -/
def FaultSet.insert (f : FaultSet) : FaultCode → FaultSet
  | .illegalCommand => { f with illegalCommand := true }
  | .notSelected => { f with notSelected := true }
  | .directionMismatch => { f with directionMismatch := true }
  | .busContention => { f with busContention := true }

/-- `raise Fault(code, w)` on the record: FAULTS gains the code; FIRST_FAULT and FAULT_CMD are written only when FIRST_FAULT is
none (rule R87). -/
def FaultRecord.raise (r : FaultRecord) (code : FaultCode) (w : Word) : FaultRecord :=
  match r.first with
  | none => { faults := r.faults.insert code, first := some code, cmd := some w }
  | some _ => { r with faults := r.faults.insert code }

/-- Raise a fault if its cause holds; all that apply are recorded, in the order the checks stand (rule R88). -/
def FaultRecord.raiseIf (r : FaultRecord) (c : Bool) (code : FaultCode) (w : Word) : FaultRecord :=
  if c then r.raise code w else r

end Sys2Proof.Machine
end

