-- ==== Sys2Proof/Machine/Operands.lean ====
section
/-! DEFINITION. How operands and results stand on the lines: the serial bit order of an address byte (rules R41, R63) and the
lines D7..D0 of a data byte (rules R69, R70). -/

namespace Sys2Proof.Machine

/-- The bits of a byte in the order MSB first: bit 7, bit 6, ..., bit 0 (rules R41, R63). -/
def bitsMsbFirst (v : Byte) : List Bool :=
  [v.getLsbD 7, v.getLsbD 6, v.getLsbD 5, v.getLsbD 4, v.getLsbD 3, v.getLsbD 2, v.getLsbD 1, v.getLsbD 0]

/-- The high byte of an address, shifted out first (rule R65). -/
def addrHigh (a : Addr) : Byte := a.extractLsb' 8 8

/-- The low byte of an address, shifted out second (rule R65). -/
def addrLow (a : Addr) : Byte := a.extractLsb' 0 8

/-- One place toward the second stage, taking a bit into bit 0; the top bit is lost (rules R60, R69). -/
def shiftIn {n : Nat} (v : BitVec n) (b : Bool) : BitVec n := (v <<< 1) ||| (BitVec.ofBool b).setWidth n

/-- The levels of D7, D6, ..., D0 when a byte is on the lines: Di carries bit i (rule R70). -/
def linesOf (b : Byte) : List Bool := bitsMsbFirst b

/-- The byte read from the levels of D7, D6, ..., D0: the loop of rule R69, which shifts left and takes each line in turn. -/
def byteOfLines (lines : List Bool) : Byte := lines.foldl shiftIn 0#8

end Sys2Proof.Machine
end

