-- ==== Sys2Proof/Machine/Ops.lean ====
section
/-! DEFINITION. The operations the commands share: the SRAM array, the pins, the data bus, the primitives of rule R11 with the
reactions that follow each of them, the micro-operation procedures, and `raise Fault`. -/

namespace Sys2Proof.Machine

/-! ### The SRAM array -/

/-- What an unlisted cell reads as. The spec leaves every cell unspecified after reset (rule R33): DESIGN CHOICE, unsafe
(log entry 2). -/
def Memory.unlisted : Byte := 0#8

/-- The byte at an address given as a number. -/
def Memory.readAt : Memory → Nat → Byte
  | [], _ => Memory.unlisted
  | (k, b) :: rest, a => if k = a then b else Memory.readAt rest a

/-- Put a byte at an address given as a number, keeping the addresses rising and listing no unlisted byte. -/
def Memory.writeAt : Memory → Nat → Byte → Memory
  | [], a, v => if v = Memory.unlisted then [] else [(a, v)]
  | (k, b) :: rest, a, v =>
    if a < k then
      if v = Memory.unlisted then (k, b) :: rest else (a, v) :: (k, b) :: rest
    else if a = k then
      if v = Memory.unlisted then rest else (k, v) :: rest
    else
      (k, b) :: Memory.writeAt rest a v

/-- `MemRead(a, 1)` (rule R11). -/
def Memory.read (m : Memory) (a : Addr) : Byte := Memory.readAt m a.toNat

/-- `MemWrite(a, 1, v)` (rule R11). -/
def Memory.write (m : Memory) (a : Addr) (v : Byte) : Memory := Memory.writeAt m a.toNat v

/-- The addresses from `lo` on rise strictly, all lie in the address space 0x0000 to 0xFFFF (rule R34), and no entry equals what
an unlisted cell reads as. -/
def Memory.wfFrom : Nat → Memory → Bool
  | _, [] => true
  | lo, (k, b) :: rest => decide (lo ≤ k) && decide (k < 65536) && decide (b ≠ Memory.unlisted) && Memory.wfFrom (k + 1) rest

/-- The canonical form of M. -/
def Memory.wf (m : Memory) : Bool := Memory.wfFrom 0 m

/-- M with the given cells written into an array that lists nothing, in order (rule R97, log entry 1). -/
def Memory.ofCells (cells : List (Addr × Byte)) : Memory := cells.foldl (fun m c => Memory.write m c.1 c.2) []

/-! ### Pins and derived signals -/

/-- A driven level as a pin level. -/
def levelOf (b : Bool) : Level := if b then .high else .low

/-- The level of WE_n: WE_LVL while driven, Z while released (rule R20). -/
def Pins.weN (p : Pins) : Level :=
  match p.weMode with
  | .driven => levelOf p.weLvl
  | .released => .z

/-- The present level of a pin (rule R10). -/
def Pins.level (p : Pins) : Pin → Level
  | .ser => levelOf p.ser
  | .sclk => levelOf p.sclk
  | .rclk => levelOf p.rclk
  | .oeN => levelOf p.oeN
  | .csN => levelOf p.csN
  | .weN => p.weN

/-- `Selected` (rule R27). -/
def Pins.selected (p : Pins) : Bool := !p.csN && decide (p.weMode = .driven)

/-- `sram_drives`: CS_n = 0 ∧ OE_n = 0 ∧ WE_n = 1 (rule R36). -/
def Pins.sramDrives (p : Pins) : Bool := !p.csN && !p.oeN && decide (p.weN = .high)

/-- `ctrl_drives`: DIR = Out (rule R39). -/
def Pins.controllerDrives (p : Pins) : Bool := decide (p.dir = .output)

/-- Bus contention: DIR = Out ∧ sram_drives (rule R40). -/
def Pins.contended (p : Pins) : Bool := p.controllerDrives && p.sramDrives

/-- The bus has no defined value: contention, or nobody the model knows drives it (rule R39). -/
def Pins.busFloats (p : Pins) : Bool := p.controllerDrives == p.sramDrives

/-- The address pins: A[i] = AL[i] (rule R17). -/
def State.addressPins (s : State) : Addr := s.regs.al

/-- What the controller puts on D[7:0]: nothing while DIR = In, else DOUT (rules R18, R70). -/
def State.controllerData (s : State) : Option Byte :=
  match s.pins.dir with
  | .input => none
  | .output => some s.regs.dout

/-! ### Draws and the data bus -/

/-- The value `any8` would draw now (rules R11, R39). -/
def State.nextDraw (s : State) : Byte := Config.freeByte s.draws

/-- One draw is used up. -/
def State.useDraw (s : State) : State := { s with draws := s.draws + 1 }

/-- `Bus()` (rule R39). -/
def State.bus (s : State) : Byte :=
  match s.pins.controllerDrives, s.pins.sramDrives with
  | true, false => s.regs.dout
  | false, true => s.mem.read s.regs.al
  | true, true => s.nextDraw
  | false, false => s.nextDraw

/-- The state after `Bus()` was evaluated: a draw is used up if it gave one. -/
def State.afterBus (s : State) : State := if s.pins.busFloats then s.useDraw else s

/-! ### The fault record and the trace -/

/-- `raise Fault(code, w)` (rule R87), the one result of a model fault: there is no trap entry, nothing is saved, and the command
carries on (rule R90). There is no return from it; only reset clears the record (rules R87, R91). -/
def raiseFault (code : FaultCode) (w : Word) (s : State) : State := { s with record := s.record.raise code w }

/-- Raise a fault if its cause holds (rules R81, R82). -/
def raiseFaultIf (c : Bool) (code : FaultCode) (w : Word) (s : State) : State :=
  { s with record := s.record.raiseIf c code w }

/-- Put an event on the trace if something happened. -/
def logEventIf (c : Bool) (e : Event) (s : State) : State :=
  { s with trace := if c then e :: s.trace else s.trace }

/-! ### Primitives -/

/-- The primitives of rule R11 that the commands run in sequence (log entry 11). -/
inductive Prim where
  /-- `Drive(P, v)`. On WE_n it acts only while WE_MODE = Driven (rule R20). -/
  | drive (p : Pin) (v : Bool)
  /-- SELECT's `WE_MODE <- Driven; WE_LVL <- 1`, one transition with no low glitch (rule R76, D20; log entry 18). -/
  | driveWeHigh
  /-- `Release(WE_n)`. -/
  | releaseWe
  /-- `SetDir(d)`. -/
  | setDir (d : Dir)
  /-- `DriveData(b)`. -/
  | driveData (b : Byte)
  /-- `Settle()`. -/
  | settle
deriving DecidableEq, Repr

/-- What a primitive does to the pin drivers (rules R11, R20). -/
def Prim.onPins : Prim → Pins → Pins
  | .drive .ser v, p => { p with ser := v }
  | .drive .sclk v, p => { p with sclk := v }
  | .drive .rclk v, p => { p with rclk := v }
  | .drive .oeN v, p => { p with oeN := v }
  | .drive .csN v, p => { p with csN := v }
  | .drive .weN v, p =>
    match p.weMode with
    | .driven => { p with weLvl := v }
    | .released => p
  | .driveWeHigh, p => { p with weMode := .driven, weLvl := true }
  | .releaseWe, p => { p with weMode := .released }
  | .setDir d, p => { p with dir := d }
  | .driveData _, p => p
  | .settle, p => p

/-- What a primitive itself does to the registers: `DriveData(b)` loads DOUT (rule R11). -/
def Prim.onRegs : Prim → Regs → Regs
  | .driveData b, r => { r with dout := b }
  | .drive _ _, r => r
  | .driveWeHigh, r => r
  | .releaseWe, r => r
  | .setDir _, r => r
  | .settle, r => r

/-- A primitive by itself, before any reaction; a `Settle()` changes no state and leaves its entry on the trace (rules R11, R13). -/
def Prim.apply (p : Prim) (s : State) : State :=
  logEventIf (decide (p = .settle)) .settle { s with pins := p.onPins s.pins, regs := p.onRegs s.regs }

/-- A pin rises between two moments: it was 0 and is 1 (rule R12). -/
def rises (before after : Level) : Bool := decide (before = .low) && decide (after = .high)

/-- Pin `q` has a rising edge from `before` to `after` (rule R12). -/
def risingEdge (q : Pin) (before after : Pins) : Bool := rises (before.level q) (after.level q)

/-- Trace entry of one pin: its new level, if it changed (rules R12, R13). -/
def logPin (before : State) (s : State) (q : Pin) : State :=
  logEventIf (decide (before.pins.level q ≠ s.pins.level q)) (.pin q (s.pins.level q)) s

/-- Trace entries of a primitive: every pin and the controller's data, where they changed. A primitive moves at most one of them. -/
def logChanges (before s : State) : State :=
  logEventIf (decide (before.controllerData ≠ s.controllerData)) (.data s.controllerData)
    ([Pin.ser, .sclk, .rclk, .oeN, .csN, .weN].foldl (logPin before) s)

/-- The shift register's reaction: at a rising edge of SCLK, `SR <- SR[14:0] : SER` (rule R60). -/
def shiftReaction (before after : Pins) (r : Regs) : Regs :=
  { r with sr := if risingEdge .sclk before after then shiftIn r.sr after.ser else r.sr }

/-- The latch's reaction: at a rising edge of RCLK, `AL <- SR` (rule R61). -/
def latchReaction (before after : Pins) (r : Regs) : Regs :=
  { r with al := if risingEdge .rclk before after then r.sr else r.al }

/-- The reactions of the shift register and then of the latch (rules R60, R61), and the trace entry of A[15:0] if they changed. -/
def serialReaction (before : Pins) (s : State) : State :=
  let r := latchReaction before s.pins (shiftReaction before s.pins s.regs)
  logEventIf (decide (r.al ≠ s.regs.al)) (.address r.al) { s with regs := r }

/-- A write strobe ends: WE_n rises while CS_n = 0, or CS_n rises while WE_n = 0 (rule R37). -/
def strobeEnds (before after : Pins) : Bool :=
  risingEdge .weN before after && !after.csN || risingEdge .csN before after && decide (after.weN = .low)

/-- The SRAM's commit: `MemWrite(AL, 1, Bus())`, the bus taken with the levels just before the edge (rule R37). A draw that this
takes is used up. -/
def commitReaction (before s : State) : State :=
  if strobeEnds before.pins s.pins then
    { s with
      mem := s.mem.write s.regs.al before.bus
      draws := before.afterBus.draws
      trace := .commit s.regs.al before.bus :: s.trace }
  else s

/-- A condition of rule R38, which no command reaches: CS_n = 0 with WE_n = Z, a CS_n rising edge while WE_n = 0, or an address
change while WE_n = 0. -/
def cellLost (before s : State) : Bool :=
  !s.pins.csN && decide (s.pins.weN = .z)
    || risingEdge .csN before.pins s.pins && decide (s.pins.weN = .low)
    || decide (before.addressPins ≠ s.addressPins) && decide (s.pins.weN = .low)

/-- The meaning rule R38 gives those conditions: `M[AL] <- any8` (log entry 7). -/
def lostReaction (before s : State) : State :=
  if cellLost before s then
    { s.useDraw with
      mem := s.mem.write s.regs.al s.nextDraw
      trace := .lost s.regs.al s.nextDraw :: s.trace }
  else s

/-- The record after the check of rule R40: BusContention while contention holds, if CONTENTION_IS_FAULT. -/
def State.contentionRecord (w : Word) (s : State) : FaultRecord :=
  s.record.raiseIf (s.pins.contended && s.params.contentionIsFault) .busContention w

/-- The check of rule R40: while contention holds, the event CONTENTION, and the fault if CONTENTION_IS_FAULT. -/
def contentionCheck (w : Word) (s : State) : State :=
  logEventIf s.pins.contended .contention { s with record := s.contentionRecord w }

/-- The reactions after a primitive, in the order of rule R11: the shift register and latch, the SRAM, the contention check. -/
def reactions (w : Word) (before s : State) : State :=
  contentionCheck w (lostReaction before (commitReaction before (serialReaction before.pins s)))

/-- One primitive of the command `w`, with its trace entries and the reactions that follow it (rule R11). -/
def runPrim (w : Word) (s : State) (p : Prim) : State := reactions w s (logChanges s (p.apply s))

/-- The primitives of a sequence in order, nothing between them (rules R13, R44, R79). -/
def runPrims (w : Word) (ps : List Prim) (s : State) : State := ps.foldl (runPrim w) s

/-- `SampleBus()`: the value of all eight lines at one instant, assembled from D7 to D0 (rules R11, R69, D26). -/
def sampleBusValue (s : State) : Byte := byteOfLines (linesOf s.bus)

/-- The state after `SampleBus()`: it moves no pin; a draw may be used up, and the check of rule R40 runs after it. -/
def sampleBusState (w : Word) (s : State) : State := reactions w s s.afterBus

/-! ### Micro-operation procedures -/

/-- `ShiftBit(b)` (rule R62). -/
def shiftBit (b : Bool) : List Prim :=
  [.drive .ser b, .settle, .drive .sclk true, .settle, .drive .sclk false, .settle]

/-- `ShiftOutByte(v)`, MSB first (rule R63). -/
def shiftOutByte (v : Byte) : List Prim := (bitsMsbFirst v).flatMap shiftBit

/-- `LatchPulse()` (rule R64). -/
def latchPulse : List Prim :=
  [.drive .rclk false, .settle, .drive .rclk true, .settle, .drive .rclk false, .settle]

/-- `SetAddress(a, oe)`: high byte first, then the latch pulse, then OE_n (rule R65). -/
def setAddress (a : Addr) (oe : Bool) : List Prim :=
  shiftOutByte (addrHigh a) ++ shiftOutByte (addrLow a) ++ latchPulse ++ [.drive .oeN (!oe), .settle]

/-- `respond RDATA` with RDATA written first: the byte is on RSP_DATA with RSP_VALID raised, and the host has it
(rules R24, R32, R74, R81). -/
def respond (v : Byte) (s : State) : State :=
  { s with regs := { s.regs with rdata := v }, rspValid := true, responses := s.responses ++ [v] }

/-- `RDATA <- SampleBus()`, then the response (rules R74, R81). -/
def respondSample (w : Word) (s : State) : State := respond (sampleBusValue s) (sampleBusState w s)

/-- `RDATA <- any8`, then the response (rules R74, R81). -/
def respondDraw (s : State) : State := respond s.nextDraw s.useDraw

end Sys2Proof.Machine
end

