-- ==== Sys2Proof/Machine/AddressLatch.lean ====
section
/-! DEFINITION. The shift-register address latch family: SETADDR (rule R68). -/

namespace Sys2Proof.Machine

/-- SETADDR addr, oe (rule R68). Legal while deselected. -/
def execSetAddr (a : Addr) (oe : Bool) (s : State) : Host.Outcome State Fault Refusal :=
  .next (runPrims (encode (.setAddr a oe)) (setAddress a oe) s)

end Sys2Proof.Machine
end

