-- ==== Sys2Proof/Machine/ByteSequencer.lean ====
section
/-! DEFINITION. The byte-sequencer family: READ, WRITE, DELAY (rules R81 to R83). -/

namespace Sys2Proof.Machine

/-- The write-enable strobe of WRITE, high to low to high (rule R82). -/
def strobeSeq : List Prim := [.drive .weN false, .settle, .drive .weN true, .settle]

/-- The primitives of READ up to the sample: the address with output enabled, then the access settle (rule R81). -/
def readSeq (a : Addr) : List Prim := setAddress a true ++ [.settle]

/-- The primitives of WRITE: the address with output disabled, the data, the strobe (rule R82). -/
def writeSeq (a : Addr) (d : Byte) : List Prim := setAddress a false ++ [.driveData d, .settle] ++ strobeSeq

/-- READ addr (rule R81). NotSelected and DirectionMismatch are checked before the first primitive, in that order (rule R88); the
command then runs whole, and after either fault RDATA is a draw. -/
def execRead (a : Addr) (s : State) : Host.Outcome State Fault Refusal :=
  let w := encode (.read a)
  let bad := !s.pins.selected || s.pins.controllerDrives
  let t := runPrims w (readSeq a)
    (raiseFaultIf s.pins.controllerDrives .directionMismatch w (raiseFaultIf (!s.pins.selected) .notSelected w s))
  .next (if bad then respondDraw (sampleBusState w t) else respondSample w t)

/-- WRITE addr, data (rule R82). NotSelected and DirectionMismatch are checked before the first primitive, in that order
(rule R88); the command then runs whole. While deselected the strobe is suppressed by WE_MODE = Released (rule R20). -/
def execWrite (a : Addr) (d : Byte) (s : State) : Host.Outcome State Fault Refusal :=
  let w := encode (.write a d)
  .next (runPrims w (writeSeq a d)
    (raiseFaultIf (!s.pins.controllerDrives) .directionMismatch w (raiseFaultIf (!s.pins.selected) .notSelected w s)))

/-- DELAY (rule R83). -/
def execDelay (s : State) : Host.Outcome State Fault Refusal :=
  .next (runPrims (encode .delay) [.settle] s)

end Sys2Proof.Machine
end

