-- ==== Sys2Proof/Machine/ChipControl.lean ====
section
/-! DEFINITION. The chip-control family: SELECT and DESELECT (rules R76, R77). -/

namespace Sys2Proof.Machine

/-- The primitives of SELECT: write enable driven high first, then chip select (rule R76, D19). -/
def selectSeq : List Prim := [.driveWeHigh, .settle, .drive .csN false, .settle]

/-- The primitives of DESELECT: chip select first, then write enable released (rule R77, D19). -/
def deselectSeq : List Prim := [.drive .csN true, .settle, .releaseWe, .settle]

/-- SELECT (rule R76). -/
def execSelect (s : State) : Host.Outcome State Fault Refusal :=
  .next (runPrims (encode .select) selectSeq s)

/-- DESELECT (rule R77). -/
def execDeselect (s : State) : Host.Outcome State Fault Refusal :=
  .next (runPrims (encode .deselect) deselectSeq s)

end Sys2Proof.Machine
end

