-- ==== Sys2Proof/Machine/DataBus.lean ====
section
/-! DEFINITION. The data-bus family: DIR_IN, DIR_OUT, SAMPLE (rules R72 to R74). -/

namespace Sys2Proof.Machine

/-- The primitives of DIR_IN (rule R72). -/
def dirInSeq : List Prim := [.setDir .input, .settle]

/-- The primitives of DIR_OUT (rule R73). -/
def dirOutSeq : List Prim := [.setDir .output, .settle]

/-- DIR_IN (rule R72). -/
def execDirIn (s : State) : Host.Outcome State Fault Refusal :=
  .next (runPrims (encode .dirIn) dirInSeq s)

/-- DIR_OUT (rule R73). -/
def execDirOut (s : State) : Host.Outcome State Fault Refusal :=
  .next (runPrims (encode .dirOut) dirOutSeq s)

/-- SAMPLE (rule R74): DirectionMismatch when DIR = Out, and then RDATA is a draw and the bus is not sampled.
The check of the direction stands before the first primitive, as rule R88 orders it (log entry 6). -/
def execSample (s : State) : Host.Outcome State Fault Refusal :=
  let w := encode .sample
  let t := runPrims w [.settle] (raiseFaultIf s.pins.controllerDrives .directionMismatch w s)
  .next (if s.pins.controllerDrives then respondDraw t else respondSample w t)

end Sys2Proof.Machine
end

