-- ==== Sys2Proof/Machine/Dispatch.lean ====
section
/-! DEFINITION. One arm per command of the opcode map (rule R54): the rule of each command runs with its operands (rule R79). -/

namespace Sys2Proof.Machine

def exec (i : Instr) (s : State) : Host.Outcome State Fault Refusal :=
  match i with
  | .delay => Sys2Proof.Machine.execDelay s
  | .select => Sys2Proof.Machine.execSelect s
  | .deselect => Sys2Proof.Machine.execDeselect s
  | .dirIn => Sys2Proof.Machine.execDirIn s
  | .dirOut => Sys2Proof.Machine.execDirOut s
  | .setAddr addr oe => Sys2Proof.Machine.execSetAddr addr oe s
  | .sample => Sys2Proof.Machine.execSample s
  | .read addr => Sys2Proof.Machine.execRead addr s
  | .write addr data => Sys2Proof.Machine.execWrite addr data s

end Sys2Proof.Machine
end

