-- ==== Sys2Proof/Machine/HostPort.lean ====
section
/-! DEFINITION. The host port and the outside world: acceptance and completion of a command, an Illegal word, the external
master's step, the reset event (rules R32, R46, R56, R79, R97). -/

namespace Sys2Proof.Machine

/-- CMD_READY: 1 exactly when SEQ = Idle (rule R32). -/
def State.cmdReady (s : State) : Bool := decide (s.seq = .idle)

/-- CMD_VALID: the host holds a word on the port (rule R32). -/
def State.cmdValid (s : State) : Bool :=
  match s.inputs with
  | .command _ :: _ => true
  | _ => false

/-- CMD: the word the host holds on the port, if it holds one (rule R32). -/
def State.cmdWord (s : State) : Option Word :=
  match s.inputs with
  | .command w :: _ => some w
  | _ => none

/-- RSP_DATA: RDATA at the completion of a SAMPLE or READ (rules R24, R32, D36). The spec leaves open what it carries while RSP_VALID = 0;
the model has RDATA there too: DESIGN CHOICE, unsafe (log entry 20). -/
def State.rspData (s : State) : Byte := s.regs.rdata

/-- A command is accepted: the word leaves the host, SEQ <- Busy, and the last response's RSP_VALID is over (rules R32, R79). -/
def accept (rest : List Input) (s : State) : State := { s with inputs := rest, seq := .busy, rspValid := false }

/-- A command is complete: SEQ <- Idle (rule R79). -/
def complete (o : Host.Outcome State Fault Refusal) : Host.Outcome State Fault Refusal :=
  match o with
  | .next s => .next { s with seq := .idle }
  | .fault r => .fault r
  | .refused r => .refused r

/-- An Illegal word: no primitive, no change of block state or M, no response; IllegalCommand is recorded (rule R56). -/
def runIllegal (w : Word) (s : State) : State := raiseFault .illegalCommand w s

/-- The host holds no word: the block waits, and nothing changes but that the last response's RSP_VALID is over (rules R32, R98). -/
def waitForHost (s : State) : State := { s with rspValid := false }

/-- The external master may step: it exists, the block is between commands, and CS_n = 1 (rule R46). -/
def State.externalMasterMayStep (s : State) : Bool := s.params.externalMaster && s.pins.csN && s.cmdReady

/-- `ExtWrite(a, v)`: it changes the cell and no other state; where the external master may not step it takes no step
(rule R46, log entry 5). -/
def extWrite (a : Addr) (v : Byte) (s : State) : State :=
  if s.externalMasterMayStep then { s with mem := s.mem.write a v } else s

/-- The machine after a reset that drew `d`: every element at its value of rule R33, the unspecified ones at the values drawn. -/
def State.afterReset (d : ResetDraws) : State :=
  { State.reset with
    regs := d.regs
    mem := Memory.ofCells d.cells }

/-- The reset event (rule R97): no primitive and no write strobe. The parameters, what the outside world will do, the responses the host
already has, the trace and the count of draws are no state elements of the block, and stay (log entry 14). -/
def resetEvent (d : ResetDraws) (s : State) : State :=
  { State.afterReset d with
    params := s.params
    inputs := s.inputs
    responses := s.responses
    trace := .reset :: s.trace
    draws := s.draws }

/-- Hold a word on the port as the host's next command, in front of every other input, with the block ready for it. -/
def offerWord (w : Word) (s : State) : State := { s with seq := .idle, inputs := .command w :: s.inputs }

end Sys2Proof.Machine
end

