-- ==== Sys2Proof/Machine/Step.lean ====
section
/-! DEFINITION. One step of the machine: the command cycle of rule R79 and the steps of the outside world (rules R46, R93, R97). -/

namespace Sys2Proof.Machine

/-- Run an accepted command word: decode, then the command's rule, or rule R56 for an Illegal word (rule R79). -/
def runWord (w : Word) (s : State) : Host.Outcome State Fault Refusal :=
  match decode w with
  | .instr i => exec i s
  | .illegal _ => .next (runIllegal w s)

/-- One step: the next input is taken. A command is accepted and runs to completion (rules R13, R79); the external master takes its
step between commands (rule R46); reset comes at any time between steps (rule R97); with no input the block waits (rule R98).
A state with SEQ = Busy stops (log entry 8), but reset ends it. -/
def step (s : State) : Host.Outcome State Fault Refusal :=
  match s.inputs, s.seq with
  | .reset d :: rest, _ => .next (resetEvent d { s with inputs := rest })
  | .command w :: rest, .idle => complete (runWord w (accept rest s))
  | .extWrite a v :: rest, .idle => .next (extWrite a v { s with inputs := rest })
  | [], .idle => .next (waitForHost s)
  | _, .busy => .fault .commandInProgress

/-- The state with the instruction whose table bits are `w` held on the host port, so that the next step accepts and runs it.
Commands come only from the host port (rules R32, R49; log entry 9). -/
def State.withFetchWord (s : State) (nbits w : Nat) : State := offerWord (tableWord nbits w) s

end Sys2Proof.Machine
end

