-- ==== Sys2Proof/Machine/Assembler.lean ====
section
/-! DEFINITION. The assembly syntax of command streams and its pseudo-commands (rules R58, R59). A text is a list of characters. -/

namespace Sys2Proof.Machine

/-- The commands a line stands for, its operands in range (rules R58, R59). -/
def expandLine : SourceLine → List Instr
  | .delay => [.delay]
  | .select => [.select]
  | .deselect => [.deselect]
  | .dirIn => [.dirIn]
  | .dirOut => [.dirOut]
  | .setAddr a oe => [.setAddr (BitVec.ofNat 16 a) (oe == 1)]
  | .sample => [.sample]
  | .read a => [.read (BitVec.ofNat 16 a)]
  | .write a d => [.write (BitVec.ofNat 16 a) (BitVec.ofNat 8 d)]
  | .nop => [.delay]
  | .oeOff a => [.setAddr (BitVec.ofNat 16 a) false]
  | .safeDirOut a => [.setAddr (BitVec.ofNat 16 a) false, .dirOut]
  | .openRead => [.dirIn, .select]
  | .openWrite a => [.setAddr (BitVec.ofNat 16 a) false, .select, .dirOut]
  | .close => [.deselect]

/-- Why a line does not assemble. -/
inductive AsmError where
  /-- The text is no form of rules R58 and R59. -/
  | badLine
  /-- An operand is out of range: an assembly error, not a command (rule R58). -/
  | operandOutOfRange
deriving DecidableEq, Repr

/-- The commands of a line, or an assembly error (rule R58). -/
def assembleLine (l : SourceLine) : Except AsmError (List Instr) :=
  if l.wellFormed then .ok (expandLine l) else .error .operandOutOfRange

/-- The value of a digit in base 10 or 16. Hexadecimal letters count in both cases (log entry 10). -/
def digitValue (base : Nat) (c : Char) : Option Nat :=
  let n := c.toNat
  let v := if 48 ≤ n ∧ n ≤ 57 then n - 48 else if 65 ≤ n ∧ n ≤ 70 then n - 55 else if 97 ≤ n ∧ n ≤ 102 then n - 87 else base
  if v < base then some v else none

/-- The value of digits that follow a number read so far. -/
def digitsValue (base : Nat) : Nat → List Char → Option Nat
  | acc, [] => some acc
  | acc, c :: cs =>
    match digitValue base c with
    | some d => digitsValue base (acc * base + d) cs
    | none => none

/-- A number: decimal, or hexadecimal with the prefix `0x` (rule R58). -/
def numberValue : List Char → Option Nat
  | [] => none
  | '0' :: 'x' :: [] => none
  | '0' :: 'x' :: ds => digitsValue 16 0 ds
  | ds => digitsValue 10 0 ds

/-- The pieces of a line: words, and each comma alone; blanks separate. `cur` is the word being read, backwards. -/
def splitLine : List Char → List Char → List (List Char)
  | cur, [] => if cur.isEmpty then [] else [cur.reverse]
  | cur, c :: cs =>
    if c = ' ' ∨ c = '\t' then (if cur.isEmpty then [] else [cur.reverse]) ++ splitLine [] cs
    else if c = ',' then (if cur.isEmpty then [] else [cur.reverse]) ++ [','] :: splitLine [] cs
    else splitLine (c :: cur) cs

/-- A line without its comment, which runs from `;` to its end (rule R58). -/
def dropComment (line : List Char) : List Char := line.takeWhile (fun c => decide (c ≠ ';'))

/-- The forms without an operand (rules R58, R59). -/
def plainForms : List (List Char × SourceLine) :=
  [ (['D','E','L','A','Y'], .delay),
    (['S','E','L','E','C','T'], .select),
    (['D','E','S','E','L','E','C','T'], .deselect),
    (['D','I','R','_','I','N'], .dirIn),
    (['D','I','R','_','O','U','T'], .dirOut),
    (['S','A','M','P','L','E'], .sample),
    (['N','O','P'], .nop),
    (['O','P','E','N','_','R','E','A','D'], .openRead),
    (['C','L','O','S','E'], .close) ]

/-- The forms with one operand (rules R58, R59). -/
def unaryForms : List (List Char × (Nat → SourceLine)) :=
  [ (['R','E','A','D'], .read),
    (['O','E','_','O','F','F'], .oeOff),
    (['S','A','F','E','_','D','I','R','_','O','U','T'], .safeDirOut),
    (['O','P','E','N','_','W','R','I','T','E'], .openWrite) ]

/-- The forms with two operands (rule R58). -/
def binaryForms : List (List Char × (Nat → Nat → SourceLine)) :=
  [ (['S','E','T','A','D','D','R'], .setAddr),
    (['W','R','I','T','E'], .write) ]

/-- What stands under a mnemonic in a table of forms. -/
def formOf {α : Type} (forms : List (List Char × α)) (m : List Char) : Option α :=
  (forms.find? (fun f => decide (f.1 = m))).map Prod.snd

/-- The line that the pieces spell, if they spell one. -/
def lineOfPieces : List (List Char) → Option SourceLine
  | [m] => formOf plainForms m
  | [m, a] =>
    match formOf unaryForms m, numberValue a with
    | some f, some x => some (f x)
    | _, _ => none
  | [m, a, [','], b] =>
    match formOf binaryForms m, numberValue a, numberValue b with
    | some f, some x, some y => some (f x y)
    | _, _, _ => none
  | _ => none

/-- The command words of one line of text (rule R58). The rule says one command per line and is silent on a line with no command, blank or
comment only: that such a line assembles to no words is the model's choice, DESIGN CHOICE (log entry 10). -/
def assembleText (line : List Char) : Except AsmError (List Word) :=
  match splitLine [] (dropComment line) with
  | [] => .ok []
  | pieces =>
    match lineOfPieces pieces with
    | none => .error .badLine
    | some l =>
      match assembleLine l with
      | .ok is => .ok (is.map encode)
      | .error e => .error e

end Sys2Proof.Machine
end

