-- ==== Sys2Proof/Safety.lean ====
section
/-! DEFINITION. The terms in which claims speak of the machine: the invariants between commands, a final state, a command's
duration, and what the trace shows. -/

namespace Sys2Proof.Machine

/-- The state without its trace. Two states that agree here agree in every register, pin, cell of M, fault, input, response and
draw count; only the bookkeeping of pin events may differ. -/
def State.noTrace (s : State) : State := { s with trace := [] }

/-- What the block keeps between commands (rules R23, R27): WE_MODE = Driven exactly when CS_n = 0, WE_LVL = 1, SCLK = 0,
RCLK = 0. -/
structure Pins.Resting (p : Pins) : Prop where
  /-- WE_MODE = Driven exactly when CS_n = 0 (rule R27). -/
  wePaired : p.weMode = .driven ↔ p.csN = false
  /-- WE_LVL = 1 (rule R27). -/
  weHigh : p.weLvl = true
  /-- SCLK = 0 (rule R23). -/
  sclkLow : p.sclk = false
  /-- RCLK = 0 (rule R23). -/
  rclkLow : p.rclk = false

/-- The record agrees with itself (rules R28, R87): no first fault means no fault and no command word, and a first fault is in the
set and has its command word. -/
def FaultRecord.consistent (r : FaultRecord) : Bool :=
  match r.first with
  | none => decide (r.faults = FaultSet.empty) && r.cmd.isNone
  | some c => r.faults.has c && r.cmd.isSome

/-- The invariant that every step keeps. -/
structure State.Inv (s : State) : Prop where
  /-- Between commands the block rests (rules R23, R27). -/
  resting : s.pins.Resting
  /-- Between commands SEQ = Idle (rules R25, R79). -/
  idle : s.seq = .idle
  /-- M is in its canonical form, within the address space (rule R34). -/
  memWf : s.mem.wf = true
  /-- The fault record agrees with itself (rules R28, R87). -/
  recordOk : s.record.consistent = true
  /-- Contention that lasts between commands has been recorded when it arose (rules R40, R83). -/
  contentionRecorded : s.pins.contended = true → s.params.contentionIsFault = true → s.record.faults.busContention = true

/-- `k` steps, stopping at the first fault or refusal. -/
def runSteps : Nat → State → Host.Outcome State Fault Refusal
  | 0, s => .next s
  | k + 1, s =>
    match step s with
    | .next t => runSteps k t
    | .fault r => .fault r
    | .refused r => .refused r

/-- An input that is a word of the host. -/
def Input.isCommand : Input → Bool
  | .command _ => true
  | .extWrite _ _ | .reset _ => false

/-- A run has ended: the host has issued its last word and SEQ = Idle (rule R107). A step of the external master, or a reset, may still
be waiting: a claim must hold for every such write after the end as well. -/
def State.ended (s : State) : Bool := !s.inputs.any Input.isCommand && s.cmdReady

/-- The end state is final only if FAULTS = ∅ (rules R87, R107). -/
def State.final (s : State) : Bool := s.ended && decide (s.record.faults = FaultSet.empty)

/-- READ and SAMPLE read a cell of M: the chip is selected and DIR = In (rules R78, R99, R100). -/
def State.readReady (s : State) : Bool := s.pins.selected && !s.pins.controllerDrives

/-- WRITE stores its byte: the chip is selected and DIR = Out (rules R78, R99, R100). -/
def State.writeReady (s : State) : Bool := s.pins.selected && s.pins.controllerDrives

/-- How many `Settle()` a trace holds (rule R106). -/
def settleCount (tr : List Event) : Nat := tr.countP (· = Event.settle)

/-- The least time a trace takes: the number of its `Settle()` times T_SETTLE (rules R104, R106). -/
def State.leastDuration (s : State) : Nat := settleCount s.trace * s.params.tSettle

/-- One event as a change of pin `p`. -/
def Event.levelOfPin (p : Pin) : Event → Option Level
  | .pin q v => if q = p then some v else none
  | _ => none

/-- The levels pin `p` changed to, oldest first, in a trace that stands newest first (rule R103). -/
def pinHistory (p : Pin) (tr : List Event) : List Level := tr.reverse.filterMap (Event.levelOfPin p)

/-- One event as a commit of the SRAM. -/
def Event.commitOf : Event → Option (Addr × Byte)
  | .commit a b => some (a, b)
  | _ => none

/-- The SRAM commits of a trace, oldest first (rules R37, R43). -/
def commits (tr : List Event) : List (Addr × Byte) := tr.reverse.filterMap Event.commitOf

/-- One event as a change of the address pins. -/
def Event.addressOf : Event → Option Addr
  | .address a => some a
  | _ => none

/-- The addresses the address pins changed to, oldest first (rule R67). -/
def addressHistory (tr : List Event) : List Addr := tr.reverse.filterMap Event.addressOf

/-- The entries that say what the pins, the data lines and the SRAM did, and the settles: all but CONTENTION and a lost cell. -/
def Event.onWires : Event → Bool
  | .contention => false
  | .lost _ _ => false
  | .pin _ _ | .address _ | .data _ | .settle | .commit _ _ | .reset => true

/-- The trace of the wires, newest first (rule R103). -/
def wires (tr : List Event) : List Event := tr.filter Event.onWires

/-! ### The wires of the longer commands, oldest first, as rules R62 to R65, R81, R82 and R103 order them -/

/-- A pin driven to `v` from `u` makes an entry only if the level changes (rule R12). -/
def levelChange (p : Pin) (u v : Bool) : List Event := if u = v then [] else [.pin p (levelOf v)]

/-- The bits of an address in the order in which they are sent, a[15] first (rules R63, R65). -/
def sentBits (a : Addr) : List Bool := (List.range 16).map fun k => a.getLsbD (15 - k)

/-- Bits shifted out one after the other, SER at `ser` before the first: SER, then SCLK high and low, a settle after each
(rules R62, R103). -/
def shiftWires : Bool → List Bool → List Event
  | _, [] => []
  | ser, b :: bs =>
    levelChange .ser ser b ++ [.settle, .pin .sclk .high, .settle, .pin .sclk .low, .settle] ++ shiftWires b bs

/-- The latch pulse: RCLK low, high and low, the address pins changing at the rising edge if they change at all (rules R61, R64). -/
def latchWires (old new : Addr) : List Event :=
  [.settle, .pin .rclk .high] ++ (if old = new then [] else [.address new]) ++ [.settle, .pin .rclk .low, .settle]

/-- `SetAddress(a, oe)`: the sixteen bits, the latch pulse, then OE_n (rule R65). -/
def setAddressWires (s : State) (a : Addr) (oe : Bool) : List Event :=
  shiftWires s.pins.ser (sentBits a) ++ latchWires s.regs.al a ++ levelChange .oeN s.pins.oeN (!oe) ++ [.settle]

/-- `DriveData(d); Settle()`: the lines change only if DIR = Out and they did not carry `d` (rules R11, R82). -/
def driveDataWires (s : State) (d : Byte) : List Event :=
  (if s.pins.dir = .output ∧ s.regs.dout ≠ d then [.data (some d)] else []) ++ [.settle]

/-- The strobe that commits `b` at `a`: WE_n low, a settle, WE_n high and the commit, a settle (rules R37, R82). -/
def strobeWires (a : Addr) (b : Byte) : List Event := [.pin .weN .low, .settle, .pin .weN .high, .commit a b, .settle]

/-- `b` is a draw taken between two states, so nothing is known of its value (rules R11, R39, R107). -/
def FreshDraw (s t : State) (b : Byte) : Prop := ∃ k, s.draws ≤ k ∧ k < t.draws ∧ b = Config.freeByte k

/-- The record after BusContention was or was not raised by the command `w` (rules R40, R87): `c` says whether contention held at
one of its primitives. -/
def State.recordAfter (s : State) (c : Bool) (w : Word) : FaultRecord :=
  s.record.raiseIf (c && s.params.contentionIsFault) .busContention w

/-- READ and WRITE need the chip selected (rules R78, R86). -/
def needsSelect : Instr → Bool
  | .read _ | .write _ _ => true
  | .delay | .select | .deselect | .dirIn | .dirOut | .setAddr _ _ | .sample => false

/-- The direction does not match the access: READ and SAMPLE need In, WRITE needs Out (rules R86, R100). -/
def mismatch (i : Instr) (p : Pins) : Bool :=
  match i with
  | .read _ | .sample => p.controllerDrives
  | .write _ _ => !p.controllerDrives
  | .delay | .select | .deselect | .dirIn | .dirOut | .setAddr _ _ => false

/-- Contention holds at some primitive of the command, from pins that rest (rules R68, R72 to R74, R76, R77, R81 to R83, R86). -/
def contends (i : Instr) (p : Pins) : Bool :=
  match i with
  | .delay | .sample | .write _ _ => p.contended
  | .select => p.controllerDrives && !p.oeN
  | .deselect | .dirIn => false
  | .dirOut => p.selected && !p.oeN
  | .setAddr _ oe => p.contended || p.controllerDrives && p.selected && oe
  | .read _ => p.controllerDrives && p.selected

end Sys2Proof.Machine
end

