-- ==== Sys2Proof/Certificates/Slice0/Obligations.lean ====
section
/-! DEFINITION. The statements for the provers, each with the rule of spec/ it formalises.
"Up to the trace" means: every register, pin, cell of M, fault, input, response and draw count, but not the pin-event trace. -/

open Sys2Proof Sys2Proof.Machine

/-! ### Encoding -/

/-- Rules R52 to R55: decoding the word of a well-formed instruction gives the instruction back, every operand at every value. -/
def Obligations.DecodeOfEncodeIsIdentity : Prop :=
  ∀ i : Instr, i.wellFormed = true → decode (encode i) = .instr i

/-- Rules R52 to R55: a word that decodes to an instruction is that instruction's word, so no bit of it is ignored. -/
def Obligations.EncodeOfDecodeIsIdentity : Prop :=
  ∀ (w : Word) (i : Instr), decode w = .instr i → encode i = w

/-- Rule R54: the masks do not overlap, each word matches at most one row. -/
def Obligations.EachWordHitsAtMostOneRow : Prop :=
  ∀ w : Word, (opcodeMap.filter (fun r => r.hits w)).length ≤ 1

/-- Rule R56: a word is Illegal exactly when OP is 0x9 to 0xF or a reserved or unused bit is nonzero; such a word changes no pin,
register, cell of M or parameter, gives no response and does not raise RSP_VALID, records IllegalCommand with the word, and the block is
back at Idle. When RSP_VALID of an earlier response ends is left open. -/
def Obligations.IllegalWordsOnlyRecordTheFault : Prop :=
  (∀ w : Word, (∃ why, decode w = .illegal why) ↔
    9 ≤ (fieldOp w).toNat ∨ fieldRsv w ≠ 0#3 ∨
    (fieldF w = true ∧ (fieldOp w).toNat ≠ 5) ∨
    (fieldData w ≠ 0#8 ∧ (fieldOp w).toNat ≠ 8) ∨
    (fieldAddr w ≠ 0#16 ∧ (fieldOp w).toNat ≠ 5 ∧ (fieldOp w).toNat ≠ 7 ∧ (fieldOp w).toNat ≠ 8)) ∧
  (∀ (s : State) (w : Word) (rest : List Input) (why : IllegalWord),
    s.seq = .idle → s.inputs = .command w :: rest → decode w = .illegal why →
    ∃ t, step s = .next t ∧ (t.rspValid = true → s.rspValid = true) ∧
      { t with rspValid := s.rspValid } = { s with inputs := rest, record := s.record.raise .illegalCommand w })

/-- Rule R54, a few words written out bit by bit: what they decode to. -/
def Obligations.WrittenOutWordsDecode : Prop :=
  decode 0b00000000000000000000000000000000#32 = .instr .delay ∧
  decode 0b00010000000000000000000000000000#32 = .instr .select ∧
  decode 0b01000000000000000000000000000000#32 = .instr .dirOut ∧
  decode 0b01010001000000000001001000110100#32 = .instr (.setAddr 0x1234#16 true) ∧
  decode 0b01110000000000001010101111001101#32 = .instr (.read 0xABCD#16) ∧
  decode 0b10000000010110101010101111001101#32 = .instr (.write 0xABCD#16 0x5A#8) ∧
  decode 0b10000001000000000000000000000000#32 = .illegal .unusedBitSet ∧
  decode 0b10010000000000000000000000000000#32 = .illegal .reservedOpcode

/-- Rules R58, R59: an operand out of range is an assembly error, not a command; the ranges of every form with operands; and what each form
assembles to, every operand in range. -/
def Obligations.OutOfRangeOperandsDoNotAssemble : Prop :=
  (∀ l : SourceLine, l.wellFormed = false → assembleLine l = .error .operandOutOfRange) ∧
  (∀ l : SourceLine, l.wellFormed = true → assembleLine l = .ok (expandLine l)) ∧
  (∀ a oe : Nat, (SourceLine.setAddr a oe).wellFormed = true ↔ a ≤ 0xFFFF ∧ oe ≤ 1) ∧
  (∀ a d : Nat, (SourceLine.write a d).wellFormed = true ↔ a ≤ 0xFFFF ∧ d ≤ 0xFF) ∧
  (∀ a : Nat, (SourceLine.read a).wellFormed = true ↔ a ≤ 0xFFFF) ∧
  (∀ a : Nat, (SourceLine.oeOff a).wellFormed = true ↔ a ≤ 0xFFFF) ∧
  (∀ a : Nat, (SourceLine.safeDirOut a).wellFormed = true ↔ a ≤ 0xFFFF) ∧
  (∀ a : Nat, (SourceLine.openWrite a).wellFormed = true ↔ a ≤ 0xFFFF) ∧
  assembleLine .delay = .ok [.delay] ∧
  assembleLine .select = .ok [.select] ∧
  assembleLine .deselect = .ok [.deselect] ∧
  assembleLine .dirIn = .ok [.dirIn] ∧
  assembleLine .dirOut = .ok [.dirOut] ∧
  (∀ (a : Addr) (oe : Bool), assembleLine (.setAddr a.toNat oe.toNat) = .ok [.setAddr a oe]) ∧
  assembleLine .sample = .ok [.sample] ∧
  (∀ a : Addr, assembleLine (.read a.toNat) = .ok [.read a]) ∧
  (∀ (a : Addr) (d : Byte), assembleLine (.write a.toNat d.toNat) = .ok [.write a d]) ∧
  assembleLine .nop = .ok [.delay] ∧
  (∀ a : Addr, assembleLine (.oeOff a.toNat) = .ok [.setAddr a false]) ∧
  (∀ a : Addr, assembleLine (.safeDirOut a.toNat) = .ok [.setAddr a false, .dirOut]) ∧
  assembleLine .openRead = .ok [.dirIn, .select] ∧
  (∀ a : Addr, assembleLine (.openWrite a.toNat) = .ok [.setAddr a false, .select, .dirOut]) ∧
  assembleLine .close = .ok [.deselect]

/-! ### Bit orders, the shift register and the bus -/

/-- Rules R69 to R71, the lines listed from D7 to D0: sampling gives the byte whose bit i is Di, driving puts bit i on Di, and a byte
driven and sampled back is the byte. -/
def Obligations.DrivenByteSamplesBack : Prop :=
  (∀ (lines : List Bool) (i : Nat), lines.length = 8 → i < 8 → lines[7 - i]? = some ((byteOfLines lines).getLsbD i)) ∧
  (∀ (b : Byte) (i : Nat), i < 8 → (linesOf b)[7 - i]? = some (b.getLsbD i)) ∧
  (∀ b : Byte, byteOfLines (linesOf b) = b)

/-- Rules R60, R61, at every primitive of every sequence: a rising edge of SCLK shifts SER in at bit 0 and loses SR[15]; nothing else
writes SR; a rising edge of RCLK copies SR to AL, which the address pins show; nothing else writes AL. -/
def Obligations.SerialEdgesShiftAndLatch : Prop :=
  ∀ (w : Word) (s : State) (p : Prim),
    let t := runPrim w s p
    ((s.pins.sclk = false ∧ t.pins.sclk = true) →
      t.regs.sr.getLsbD 0 = t.pins.ser ∧ ∀ i : Nat, i < 15 → t.regs.sr.getLsbD (i + 1) = s.regs.sr.getLsbD i) ∧
    (¬ (s.pins.sclk = false ∧ t.pins.sclk = true) → t.regs.sr = s.regs.sr) ∧
    ((s.pins.rclk = false ∧ t.pins.rclk = true) → t.regs.al = s.regs.sr ∧ t.addressPins = s.regs.sr) ∧
    (¬ (s.pins.rclk = false ∧ t.pins.rclk = true) → t.regs.al = s.regs.al) ∧
    (sampleBusState w s).regs = s.regs

/-- Rule R62: `ShiftBit(b)` puts `b` on SER, then raises SCLK, then lowers it, a settle after each, and shifts `b` into SR. -/
def Obligations.ShiftBitSetsSerBeforeTheClock : Prop :=
  ∀ (w : Word) (s : State) (b : Bool), s.pins.Resting →
    let t := runPrims w (shiftBit b) s
    wires t.trace =
      [.settle, .pin .sclk .low, .settle, .pin .sclk .high, .settle] ++
        (if s.pins.ser = b then [] else [.pin .ser (levelOf b)]) ++ wires s.trace ∧
    t.regs.sr = s.regs.sr.extractLsb' 0 15 ++ BitVec.ofBool b ∧
    t.pins = { s.pins with ser := b }

/-- Rules R37, R38, at every primitive: a WE_n rising edge while CS_n = 0 commits the bus as it was into M[AL], with the SRAM not
driving; with no such edge M is unchanged; and where a condition of rule R38 holds, M[AL] is a fresh draw, with AL as it is after the
primitive (the model's reading, log entry 7), and no other cell changes. -/
def Obligations.StrobeEndCommitsTheBus : Prop :=
  ∀ (w : Word) (s : State) (p : Prim),
    let t := runPrim w s p
    (cellLost s t = false → s.pins.level .weN = .low → t.pins.level .weN = .high → t.pins.csN = false →
      t.mem = s.mem.write s.regs.al s.bus ∧ s.pins.sramDrives = false) ∧
    (cellLost s t = false → ¬ (s.pins.level .weN = .low ∧ t.pins.level .weN = .high ∧ t.pins.csN = false) → t.mem = s.mem) ∧
    (cellLost s t = true → s.mem.wf = true →
      FreshDraw s t (t.mem.read t.regs.al) ∧ ∀ x : Addr, x ≠ t.regs.al → t.mem.read x = s.mem.read x)

/-- Rule R66: after the 16 shifts of SetAddress(a, oe), SR = a whatever it held, its low byte in the first stage and its high byte in
the second; then the latch gives AL = a, and the address pins show it. -/
def Obligations.SixteenShiftsLeaveTheAddress : Prop :=
  ∀ (w : Word) (s : State) (a : Addr), s.pins.Resting →
    let t := runPrims w (shiftOutByte (addrHigh a) ++ shiftOutByte (addrLow a)) s
    let u := runPrims w latchPulse t
    t.regs = { s.regs with sr := a } ∧
    t.regs.sr.extractLsb' 0 8 = a.extractLsb' 0 8 ∧ t.regs.sr.extractLsb' 8 8 = a.extractLsb' 8 8 ∧
    u.regs = { s.regs with sr := a, al := a } ∧
    ∀ i : Nat, u.addressPins.getLsbD i = a.getLsbD i

/-- Rules R36, R39: who drives the data bus and what Bus() gives; contention and a floating bus give the next draw. -/
def Obligations.BusResolvesByItsDrivers : Prop :=
  ∀ s : State,
    (s.pins.sramDrives = true ↔ s.pins.csN = false ∧ s.pins.oeN = false ∧ s.pins.level .weN = .high) ∧
    (s.pins.dir = .output → s.pins.sramDrives = false → s.bus = s.regs.dout ∧ s.afterBus = s) ∧
    (s.pins.dir = .input → s.pins.sramDrives = true → s.bus = s.mem.read s.regs.al ∧ s.afterBus = s) ∧
    ((s.pins.dir = .output ↔ s.pins.sramDrives = true) →
      s.bus = Config.freeByte s.draws ∧ s.afterBus = { s with draws := s.draws + 1 })

/-! ### The commands: each completes, with its whole effect up to the trace -/

/-- Rule R83: DELAY completes and changes nothing; contention that holds is recorded again. -/
def Obligations.DelayOnlyWaits : Prop :=
  ∀ s : State, s.pins.Resting →
    decode 0x00000000#32 = .instr .delay ∧
    ∃ t, exec .delay s = .next t ∧
    t.noTrace = { s with record := s.recordAfter s.pins.contended 0x00000000#32 }.noTrace ∧
    wires t.trace = .settle :: wires s.trace ∧
    (s.Inv → t.noTrace = s.noTrace)

/-- Rule R76: SELECT completes: WE_n driven 1, then CS_n = 0, nothing else; contention arises when DIR = Out and OE_n = 0. -/
def Obligations.SelectDrivesWeThenCs : Prop :=
  ∀ s : State, s.pins.Resting →
    decode 0x10000000#32 = .instr .select ∧
    ∃ t, exec .select s = .next t ∧
    t.noTrace =
      { s with
        pins := { s.pins with csN := false, weMode := .driven, weLvl := true }
        record := s.recordAfter (s.pins.controllerDrives && !s.pins.oeN) 0x10000000#32 }.noTrace ∧
    t.pins.selected = true ∧
    (s.pins.selected = false →
      wires t.trace = .settle :: .pin .csN .low :: .settle :: .pin .weN .high :: wires s.trace) ∧
    (s.pins.selected = true → wires t.trace = .settle :: .settle :: wires s.trace)

/-- Rule R77: DESELECT completes: CS_n = 1, then WE_n released, nothing else, and no fault. -/
def Obligations.DeselectRaisesCsThenReleasesWe : Prop :=
  ∀ s : State, s.pins.Resting →
    decode 0x20000000#32 = .instr .deselect ∧
    ∃ t, exec .deselect s = .next t ∧
    t.noTrace = { s with pins := { s.pins with csN := true, weMode := .released } }.noTrace ∧
    t.pins.selected = false ∧
    (s.pins.selected = true →
      wires t.trace = .settle :: .pin .weN .z :: .settle :: .pin .csN .high :: wires s.trace) ∧
    (s.pins.selected = false → wires t.trace = .settle :: .settle :: wires s.trace)

/-- Rule R72: DIR_IN completes: DIR = In, nothing else, no fault; with the SRAM driving, the bus is then M[AL]. -/
def Obligations.DirInReleasesTheBus : Prop :=
  ∀ s : State, s.pins.Resting →
    decode 0x30000000#32 = .instr .dirIn ∧
    ∃ t, exec .dirIn s = .next t ∧
    t.noTrace = { s with pins := { s.pins with dir := .input } }.noTrace ∧
    t.pins.contended = false ∧ t.controllerData = none ∧
    wires t.trace = .settle :: (if s.pins.dir = .output then [.data none] else []) ++ wires s.trace ∧
    (s.pins.selected = true → s.pins.oeN = false → t.bus = t.mem.read t.regs.al)

/-- Rule R73: DIR_OUT completes: DIR = Out, so the lines carry DOUT; BusContention when Selected and OE_n = 0. -/
def Obligations.DirOutDrivesDout : Prop :=
  ∀ s : State, s.pins.Resting →
    decode 0x40000000#32 = .instr .dirOut ∧
    ∃ t, exec .dirOut s = .next t ∧
    t.noTrace =
      { s with
        pins := { s.pins with dir := .output }
        record := s.recordAfter (s.pins.selected && !s.pins.oeN) 0x40000000#32 }.noTrace ∧
    t.controllerData = some s.regs.dout ∧
    wires t.trace = .settle :: (if s.pins.dir = .input then [.data (some s.regs.dout)] else []) ++ wires s.trace

/-- Rule R68: SETADDR completes, selected or not: SR = AL = addr, OE_n = NOT oe, SER = addr[0], nothing else; the only fault is
BusContention, when contention held at the start or oe = 1 with DIR = Out and Selected. -/
def Obligations.SetAddrLatchesTheAddress : Prop :=
  ∀ (s : State) (a : Addr) (oe : Bool), s.pins.Resting →
    decode (0x5#4 ++ 0#3 ++ BitVec.ofBool oe ++ 0#8 ++ a) = .instr (.setAddr a oe) ∧
    ∃ t, exec (.setAddr a oe) s = .next t ∧
    t.noTrace =
      { s with
        pins := { s.pins with ser := a.getLsbD 0, oeN := !oe }
        regs := { s.regs with sr := a, al := a }
        record := s.recordAfter (s.pins.contended || s.pins.controllerDrives && s.pins.selected && oe)
          (encode (.setAddr a oe)) }.noTrace

/-- Rules R74, R88: SAMPLE completes with a response. With DIR = In, RDATA is M[AL] when the SRAM drives the bus and a fresh draw otherwise,
selected or not, and no fault is recorded. With DIR = Out, DirectionMismatch is recorded, then contention that holds (the order of rule
R88, not of rule R74's text: the model's choice, log entry 6), and RDATA is a fresh draw. Nothing else changes; no pin moves, and there is
one settle. -/
def Obligations.SampleReturnsTheBus : Prop :=
  ∀ s : State, s.pins.Resting →
    decode 0x60000000#32 = .instr .sample ∧
    ∃ t, exec .sample s = .next t ∧
    t.noTrace =
      { s with
        regs := { s.regs with rdata := t.regs.rdata }
        rspValid := true
        responses := s.responses ++ [t.regs.rdata]
        record := t.record
        draws := t.draws }.noTrace ∧
    (s.pins.dir = .input → t.record = s.record) ∧
    (s.pins.dir = .input → s.pins.selected = true → s.pins.oeN = false →
      t.regs.rdata = s.mem.read s.regs.al ∧ t.draws = s.draws) ∧
    (s.pins.dir = .input → s.pins.selected = false ∨ s.pins.oeN = true → FreshDraw s t t.regs.rdata) ∧
    (s.pins.dir = .output →
      t.record = (raiseFault .directionMismatch 0x60000000#32 s).recordAfter s.pins.contended 0x60000000#32 ∧
      FreshDraw s t t.regs.rdata) ∧
    wires t.trace = .settle :: wires s.trace ∧
    settleCount t.trace = settleCount s.trace + 1

/-- Rule R81: READ completes with a response: SR = AL = addr, OE_n = 0 and stays 0, SER = addr[0]. Selected with DIR = In, RDATA is
M[addr] and no fault is recorded. Otherwise NotSelected and then DirectionMismatch are recorded as they apply, then BusContention if
DIR = Out while Selected, and RDATA is a fresh draw. Nothing else changes; M is not touched. -/
def Obligations.ReadReturnsTheCell : Prop :=
  ∀ (s : State) (a : Addr), s.pins.Resting →
    decode (0x7#4 ++ 0#12 ++ a) = .instr (.read a) ∧
    ∃ t, exec (.read a) s = .next t ∧
    t.noTrace =
      { s with
        pins := { s.pins with ser := a.getLsbD 0, oeN := false }
        regs := { s.regs with sr := a, al := a, rdata := t.regs.rdata }
        rspValid := true
        responses := s.responses ++ [t.regs.rdata]
        record := t.record
        draws := t.draws }.noTrace ∧
    (s.readReady = true → t.regs.rdata = s.mem.read a ∧ t.draws = s.draws ∧ t.record = s.record) ∧
    (s.readReady = false →
      FreshDraw s t t.regs.rdata ∧
      t.record =
        (raiseFaultIf (decide (s.pins.dir = Dir.output)) .directionMismatch (encode (.read a))
          (raiseFaultIf (!s.pins.selected) .notSelected (encode (.read a)) s)).recordAfter
            (decide (s.pins.dir = Dir.output) && s.pins.selected) (encode (.read a)))

/-- Rule R82: WRITE completes, with no response: SR = AL = addr, OE_n = 1, SER = addr[0], DOUT = data. Selected with DIR = Out,
M[addr] = data; the only fault is BusContention, when the command started in contention. Selected with DIR = In, DirectionMismatch is
recorded and M[addr] is a fresh draw. Deselected, NotSelected is recorded, then DirectionMismatch if DIR = In, and M is unchanged.
Every other cell is as before, and nothing else changes. -/
def Obligations.WriteStoresTheByte : Prop :=
  ∀ (s : State) (a : Addr) (d : Byte), s.pins.Resting →
    decode (0x8#4 ++ 0#4 ++ d ++ a) = .instr (.write a d) ∧
    ∃ t, exec (.write a d) s = .next t ∧
    t.noTrace =
      { s with
        pins := { s.pins with ser := a.getLsbD 0, oeN := true }
        regs := { s.regs with sr := a, al := a, dout := d }
        mem := t.mem
        record := t.record
        draws := t.draws }.noTrace ∧
    (s.writeReady = true →
      t.mem = s.mem.write a d ∧ t.draws = s.draws ∧ t.record = s.recordAfter s.pins.contended (encode (.write a d))) ∧
    (s.pins.selected = true → s.pins.dir = .input →
      (∃ b, FreshDraw s t b ∧ t.mem = s.mem.write a b) ∧
      t.record = s.record.raise .directionMismatch (encode (.write a d))) ∧
    (s.pins.selected = false →
      t.mem = s.mem ∧ t.draws = s.draws ∧
      t.record =
        (raiseFaultIf (decide (s.pins.dir = Dir.input)) .directionMismatch (encode (.write a d))
          (raiseFault .notSelected (encode (.write a d)) s)).record) ∧
    (s.mem.wf = true →
      (s.writeReady = true → t.mem.read a = d) ∧ ∀ x : Addr, x ≠ a → t.mem.read x = s.mem.read x)

/-! ### Frames and whole-machine rules -/

/-- Rules R37, R68, R72 to R77, R81 to R83: no command but WRITE stores to M, and WRITE stores at most at its address. -/
def Obligations.OnlyWriteStores : Prop :=
  ∀ (s t : State) (i : Instr), s.pins.Resting → s.mem.wf = true → exec i s = .next t →
    (∀ x : Addr, (∀ d, i ≠ .write x d) → t.mem.read x = s.mem.read x) ∧ t.mem.wf = true

/-- Rules R15 to R24: which commands write which element, in every state, resting or not. -/
def Obligations.EachElementHasItsWriters : Prop :=
  ∀ (s t : State) (i : Instr), exec i s = .next t →
    let sends := (∃ a oe, i = .setAddr a oe) ∨ (∃ a, i = .read a) ∨ (∃ a d, i = .write a d)
    let answers := i = .sample ∨ ∃ a, i = .read a
    t.params = s.params ∧ t.inputs = s.inputs ∧ t.seq = s.seq ∧
    (t.pins.csN ≠ s.pins.csN → i = .select ∨ i = .deselect) ∧
    (t.pins.weMode ≠ s.pins.weMode → i = .select ∨ i = .deselect) ∧
    (t.pins.weLvl ≠ s.pins.weLvl → i = .select ∨ ∃ a d, i = .write a d) ∧
    (t.pins.oeN ≠ s.pins.oeN → sends) ∧
    (t.pins.dir ≠ s.pins.dir → i = .dirIn ∨ i = .dirOut) ∧
    (t.pins.ser ≠ s.pins.ser ∨ t.pins.sclk ≠ s.pins.sclk ∨ t.pins.rclk ≠ s.pins.rclk → sends) ∧
    (t.regs.sr ≠ s.regs.sr ∨ t.regs.al ≠ s.regs.al → sends) ∧
    (t.regs.dout ≠ s.regs.dout → ∃ a d, i = .write a d) ∧
    (t.regs.rdata ≠ s.regs.rdata ∨ t.responses ≠ s.responses ∨ t.rspValid ≠ s.rspValid → answers)

/-- Rules R22, R101: a READ leaves OE_n = 0, and every command but a WRITE or a SETADDR with oe = 0 keeps OE_n = 0. -/
def Obligations.OutputEnableStaysAsserted : Prop :=
  (∀ (s t : State) (a : Addr), exec (.read a) s = .next t → t.pins.oeN = false) ∧
  (∀ (s t : State) (i : Instr), exec i s = .next t → s.pins.oeN = false →
    (∀ a, i ≠ .setAddr a false) → (∀ a d, i ≠ .write a d) → t.pins.oeN = false)

/-- Rules R86 to R88: from an empty record, the faults a command records are exactly those whose cause holds, FIRST_FAULT is the first
of them in the order of rule R88, and FAULT_CMD is the command's word. -/
def Obligations.FaultsAreRecordedInOrder : Prop :=
  ∀ (s t : State) (i : Instr), s.pins.Resting → s.record = FaultRecord.empty → exec i s = .next t →
    t.record.faults.illegalCommand = false ∧
    t.record.faults.notSelected = (needsSelect i && !s.pins.selected) ∧
    t.record.faults.directionMismatch = mismatch i s.pins ∧
    t.record.faults.busContention = (contends i s.pins && s.params.contentionIsFault) ∧
    t.record.first =
      [FaultCode.illegalCommand, .notSelected, .directionMismatch, .busContention].find? (fun c => t.record.faults.has c) ∧
    t.record.cmd = t.record.first.map (fun _ => encode i)

/-- Rule R87: what `raise Fault(code, w)` does to the record, and that it touches nothing else. -/
def Obligations.RaiseWritesTheRecordOnly : Prop :=
  ∀ (s : State) (c : FaultCode) (w : Word),
    raiseFault c w s = { s with record := (raiseFault c w s).record } ∧
    (∀ c', (raiseFault c w s).record.faults.has c' = (decide (c' = c) || s.record.faults.has c')) ∧
    (s.record.first = none → (raiseFault c w s).record.first = some c ∧ (raiseFault c w s).record.cmd = some w) ∧
    (s.record.first ≠ none →
      (raiseFault c w s).record.first = s.record.first ∧ (raiseFault c w s).record.cmd = s.record.cmd)

/-- Rules R28, R87: faults are sticky: no step but a reset removes a code, and none changes a FIRST_FAULT or FAULT_CMD that is there. -/
def Obligations.FaultsAreSticky : Prop :=
  ∀ s t : State, step s = .next t → (∀ d rest, s.inputs ≠ .reset d :: rest) →
    (∀ c, s.record.faults.has c = true → t.record.faults.has c = true) ∧
    (s.record.first ≠ none → t.record.first = s.record.first ∧ t.record.cmd = s.record.cmd)

/-- Rules R8, R40: with CONTENTION_IS_FAULT = false no step records BusContention. -/
def Obligations.ContentionIsNoFaultWhenTheParameterIsFalse : Prop :=
  ∀ s t : State, s.params.contentionIsFault = false → step s = .next t → s.record.faults.busContention = false →
    t.record.faults.busContention = false

/-- Rule R40: contention that holds when a command ends was found by the command's last check: its event stands on the trace, and
the fault is recorded if CONTENTION_IS_FAULT. In every state, resting or not. -/
def Obligations.ContentionAtTheEndIsFound : Prop :=
  ∀ (s t : State) (i : Instr), exec i s = .next t → t.pins.contended = true →
    t.trace.head? = some .contention ∧ (t.params.contentionIsFault = true → t.record.faults.busContention = true)

/-- Rule R38: the conditions under which a cell is lost never occur: from pins that rest, no command puts such an event on the
trace. -/
def Obligations.NoCellIsEverLost : Prop :=
  ∀ (s t : State) (i : Instr) (a : Addr) (b : Byte), s.pins.Resting → exec i s = .next t →
    Event.lost a b ∈ t.trace → Event.lost a b ∈ s.trace

/-- Rules R43, R82: a WRITE makes one commit while Selected, of its byte at its address if DIR = Out, and none while deselected; no
other command makes one. -/
def Obligations.OneCommitPerWrite : Prop :=
  ∀ (s t : State) (i : Instr), s.pins.Resting → exec i s = .next t →
    (∀ a d, i = .write a d → s.pins.selected = true →
      ∃ b, commits t.trace = commits s.trace ++ [(a, b)] ∧ (s.pins.dir = .output → b = d)) ∧
    (∀ a d, i = .write a d → s.pins.selected = false → commits t.trace = commits s.trace) ∧
    ((∀ a d, i ≠ .write a d) → commits t.trace = commits s.trace)

/-- Rules R43, R82: writing again replaces the byte, and writing the same byte again changes no cell. -/
def Obligations.SecondWriteReplacesTheFirst : Prop :=
  ∀ (s t u : State) (a : Addr) (d e : Byte), s.pins.Resting → s.mem.wf = true → s.writeReady = true →
    exec (.write a d) s = .next t → exec (.write a e) t = .next u →
    u.mem = s.mem.write a e ∧ (d = e → u.mem = t.mem)

/-- Rules R12, R72, R73, R76, R77: SELECT, DESELECT, DIR_IN and DIR_OUT given twice leave the state the first one left, up to the
trace. -/
def Obligations.ControlCommandsAreIdempotent : Prop :=
  ∀ (s t u : State) (i : Instr), s.pins.Resting → i = .select ∨ i = .deselect ∨ i = .dirIn ∨ i = .dirOut →
    exec i s = .next t → exec i t = .next u → u.noTrace = t.noTrace

/-- Rule R49: M is never interpreted: two states that differ only in M run any command alike: same pins, trace, record, draws and
registers but for RDATA and the responses. -/
def Obligations.MemoryNeverSteersTheBlock : Prop :=
  ∀ (s t t' : State) (m : Memory) (i : Instr), exec i s = .next t → exec i { s with mem := m } = .next t' →
    t'.pins = t.pins ∧ t'.record = t.record ∧ t'.trace = t.trace ∧ t'.draws = t.draws ∧ t'.rspValid = t.rspValid ∧
    t'.responses.length = t.responses.length ∧
    t'.regs.sr = t.regs.sr ∧ t'.regs.al = t.regs.al ∧ t'.regs.dout = t.regs.dout

/-! ### The trace -/

/-- Rule R106: how many `Settle()` each command takes, and that its least duration is their number times T_SETTLE. In every state,
resting or not. -/
def Obligations.SettleCountsPerCommand : Prop :=
  ∀ (s t : State) (i : Instr), exec i s = .next t →
    let n :=
      match i with
      | .delay => 1
      | .select => 2
      | .deselect => 2
      | .dirIn => 1
      | .dirOut => 1
      | .sample => 1
      | .setAddr _ _ => 52
      | .read _ => 53
      | .write _ _ => 55
    settleCount t.trace = settleCount s.trace + n ∧ t.leastDuration = s.leastDuration + n * s.params.tSettle

/-- Rules R62 to R65, R68, R81, R82, R102, R103: the wires of SETADDR, READ and WRITE, every edge, settle and commit in its order. SER is
set before each SCLK pulse, the sixteen bits come before the latch pulse and OE_n after it, whatever AL holds; in a WRITE the data is driven
and settled after the address and before WE_n goes low, WE_n then goes high, low, high while Selected, and does not move while deselected.
SCLK goes high and low sixteen times and RCLK once in each. WE_n moves in no other command but SELECT and DESELECT. -/
def Obligations.LatchAndStrobeEdgesInOrder : Prop :=
  ∀ (s t : State) (i : Instr), s.pins.Resting → exec i s = .next t →
    ((∃ a oe, i = .setAddr a oe) ∨ (∃ a, i = .read a) ∨ (∃ a d, i = .write a d) →
      pinHistory .sclk t.trace = pinHistory .sclk s.trace ++ (List.replicate 16 [Level.high, Level.low]).flatten ∧
      pinHistory .rclk t.trace = pinHistory .rclk s.trace ++ [.high, .low]) ∧
    ((∃ a d, i = .write a d) → s.pins.selected = true →
      pinHistory .weN t.trace = pinHistory .weN s.trace ++ [.low, .high]) ∧
    ((∃ a d, i = .write a d) → s.pins.selected = false → pinHistory .weN t.trace = pinHistory .weN s.trace) ∧
    (∀ a oe, i = .setAddr a oe → wires t.trace = (setAddressWires s a oe).reverse ++ wires s.trace) ∧
    (∀ a, i = .read a → wires t.trace = (setAddressWires s a true ++ [Event.settle]).reverse ++ wires s.trace) ∧
    (∀ a d, i = .write a d → s.pins.selected = true → ∃ b, (s.pins.dir = .output → b = d) ∧
      wires t.trace = (setAddressWires s a false ++ driveDataWires s d ++ strobeWires a b).reverse ++ wires s.trace) ∧
    (∀ a d, i = .write a d → s.pins.selected = false →
      wires t.trace = (setAddressWires s a false ++ driveDataWires s d ++ [Event.settle, .settle]).reverse ++ wires s.trace) ∧
    (i = .select → pinHistory .weN t.trace = pinHistory .weN s.trace ++ if s.pins.selected then [] else [.high]) ∧
    (i = .deselect → pinHistory .weN t.trace = pinHistory .weN s.trace ++ if s.pins.selected then [.z] else []) ∧
    (i ≠ .select → i ≠ .deselect → (∀ a d, i ≠ .write a d) → pinHistory .weN t.trace = pinHistory .weN s.trace)

/-- Rule R67: during SetAddress(a, oe) the address pins change at most once, to exactly a, and not before the latch pulse; OE_n changes
at most once, and not before the last step. They end at a and at NOT oe. -/
def Obligations.AddressPinsChangeOnce : Prop :=
  ∀ (w : Word) (s : State) (a : Addr) (oe : Bool), s.pins.Resting →
    let shifts := shiftOutByte (addrHigh a) ++ shiftOutByte (addrLow a)
    let t := runPrims w (setAddress a oe) s
    addressHistory (runPrims w shifts s).trace = addressHistory s.trace ∧
    addressHistory t.trace = addressHistory s.trace ++ (if s.regs.al = a then [] else [a]) ∧
    pinHistory .oeN (runPrims w (shifts ++ latchPulse) s).trace = pinHistory .oeN s.trace ∧
    pinHistory .oeN t.trace = pinHistory .oeN s.trace ++ (if s.pins.oeN = !oe then [] else [levelOf (!oe)]) ∧
    t.addressPins = a ∧ t.pins.oeN = !oe

/-! ### Steps, reset and the outside world -/

/-- Rule R79: with SEQ = Idle and a word on the port, the step accepts it, SEQ = Busy, and runs exactly the instruction it decodes to,
or what rule R56 says of an Illegal word; then SEQ = Idle. `withFetchWord` (the model's own, log entry 9) puts such a word there; that an
acceptance lowers RSP_VALID is the model's choice (log entry 13). -/
def Obligations.StepRunsTheDecodedInstruction : Prop :=
  (∀ (s : State) (w : Word) (rest : List Input) (i : Instr),
    s.seq = .idle → s.inputs = .command w :: rest → decode w = .instr i →
    step s = complete (exec i (accept rest s))) ∧
  (∀ (s : State) (w : Word) (rest : List Input) (why : IllegalWord),
    s.seq = .idle → s.inputs = .command w :: rest → decode w = .illegal why →
    step s = complete (.next (runIllegal w (accept rest s)))) ∧
  (∀ (s : State) (rest : List Input), (accept rest s).seq = .busy ∧ (accept rest s).cmdReady = false) ∧
  (∀ s t : State, complete (.next s) = .next t → t = { s with seq := .idle } ∧ t.cmdReady = true) ∧
  (∀ (s : State) (i : Instr),
    step (s.withFetchWord 32 (encode i).toNat) = complete (exec i { s with seq := .busy, rspValid := false }))

/-- Rules R84, R90, R98: nothing traps: from SEQ = Idle every step answers a next state with SEQ = Idle, whatever the input is, and with
no input the block waits, with RSP_VALID low (the model's choice, log entry 13). -/
def Obligations.EveryStepFromIdleAnswersNext : Prop :=
  ∀ s : State, s.seq = .idle →
    (∃ t, step s = .next t ∧ t.seq = .idle) ∧
    (s.inputs = [] → step s = .next { s with rspValid := false })

/-- A state with SEQ = Busy between steps, which no run reaches, stops by name unless a reset comes: the model's own choice (log
entry 8). -/
def Obligations.BusyBetweenStepsStops : Prop :=
  ∀ s : State, s.seq = .busy → (∀ d rest, s.inputs ≠ .reset d :: rest) → step s = .fault .commandInProgress

/-- Rules R33, R97: after a reset, whatever it draws, every control value is as the table gives it and the record is empty; SR, AL, DOUT,
RDATA and M are what the reset drew; no commit is made; the parameters are kept. The values are the spec's own (D22); what becomes of the
trace and the inputs is the model's choice (log entry 14). -/
def Obligations.ResetPutsEveryElement : Prop :=
  ∀ (s : State) (d : ResetDraws) (rest : List Input), s.inputs = .reset d :: rest → ∃ t, step s = .next t ∧
    t.seq = .idle ∧ t.pins.csN = true ∧ t.pins.weMode = .released ∧ t.pins.weLvl = true ∧ t.pins.oeN = true ∧
    t.pins.dir = .input ∧ t.pins.ser = false ∧ t.pins.sclk = false ∧ t.pins.rclk = false ∧
    t.regs = d.regs ∧ t.mem = Memory.ofCells d.cells ∧ t.record = FaultRecord.empty ∧
    t.record.faults = FaultSet.empty ∧ t.record.first = none ∧ t.record.cmd = none ∧
    t.trace = .reset :: s.trace ∧ t.inputs = rest ∧ t.params = s.params

/-- Rules R33, R97: a reset can leave any contents of M, and with them any SR, AL, DOUT and RDATA, from every state. -/
def Obligations.ResetCanDrawAnyMemory : Prop :=
  ∀ (s : State) (rest : List Input) (r : Regs) (m : Memory), m.wf = true → ∃ (d : ResetDraws) (t : State),
    step { s with inputs := .reset d :: rest } = .next t ∧ t.mem = m ∧ t.regs = r

/-- Rule R107: a run has ended when the host has no word left and SEQ = Idle, whatever else is waiting, and its end state is final only if
FAULTS = ∅. After the end, every step but a reset keeps it ended, keeps it final or not, and leaves pins, registers, record, responses, trace
and draws as they are; only the external master's step changes M. -/
def Obligations.EndedRunWaitsForTheHost : Prop :=
  (∀ s : State, s.ended = true ↔ s.seq = .idle ∧ ∀ w, Input.command w ∉ s.inputs) ∧
  (∀ s : State, s.final = true ↔ s.ended = true ∧ s.record.faults = FaultSet.empty) ∧
  (∀ s t : State, s.ended = true → (∀ d rest, s.inputs ≠ .reset d :: rest) → step s = .next t →
    t.ended = true ∧ t.final = s.final ∧ t.pins = s.pins ∧ t.regs = s.regs ∧ t.record = s.record ∧
    t.responses = s.responses ∧ t.trace = s.trace ∧ t.draws = s.draws ∧ t.seq = s.seq ∧
    (t.mem ≠ s.mem → ∃ a v rest, s.inputs = .extWrite a v :: rest ∧ s.params.externalMaster = true ∧ s.pins.csN = true ∧
      t.mem = s.mem.write a v))

/-- Rule R46: the external master's step changes one cell and no other state, only while EXTERNAL_MASTER = true and CS_n = 1; otherwise
it takes no step. -/
def Obligations.ExternalMasterStepsOnlyWhileDeselected : Prop :=
  ∀ (s : State) (a : Addr) (v : Byte) (rest : List Input), s.seq = .idle → s.inputs = .extWrite a v :: rest →
    (s.params.externalMaster = true → s.pins.csN = true →
      step s = .next { s with inputs := rest, mem := s.mem.write a v }) ∧
    (s.params.externalMaster = false ∨ s.pins.csN = false → step s = .next { s with inputs := rest })

/-- Rules R8, R33, R97: the state after a reset event meets the invariant, from every state and so under every choice of the open
parameters, whatever the reset draws; so does the first state under any parameters, and the model's own `State.reset`. -/
def Obligations.ResetMeetsTheInvariant : Prop :=
  State.reset.Inv ∧ (∀ (d : ResetDraws) (p : Params), { State.afterReset d with params := p }.Inv) ∧
  ∀ (d : ResetDraws) (s : State), (resetEvent d s).Inv

/-- Rules R23, R25, R27, R34, R40, R87: every step keeps the invariant: the block rests between commands, SEQ is Idle, M is canonical, the
record agrees with itself, and contention that lasts has been recorded. -/
def Obligations.StepKeepsTheInvariant : Prop :=
  ∀ s t : State, s.Inv → step s = .next t → t.Inv ∧ t.params = s.params

/-- Rule R27, in every state where it holds: no command breaks the pairing of WE_MODE and CS_n, WE_LVL = 1 or the idle serial clocks. -/
def Obligations.CommandsLeaveThePinsResting : Prop :=
  ∀ (s t : State) (i : Instr), s.pins.Resting → exec i s = .next t → t.pins.Resting

/-- Rules R34, R46, R82: from a state of the invariant, a cell changes only by a WRITE to it while Selected, by the external master's step
while deselected, or by a reset. -/
def Obligations.CellsChangeOnlyByTheirCauses : Prop :=
  ∀ (s t : State) (x : Addr), s.Inv → step s = .next t → t.mem.read x ≠ s.mem.read x →
    (∃ w d rest, s.inputs = .command w :: rest ∧ decode w = .instr (.write x d) ∧ s.pins.selected = true) ∨
    (∃ v rest, s.inputs = .extWrite x v :: rest ∧ s.params.externalMaster = true ∧ s.pins.csN = true) ∨
    (∃ d rest, s.inputs = .reset d :: rest)

/-- Rule R45, the read-after-write law. A WRITE of b to a with no fault, then any inputs with no reset and with no commit to a, then a
READ of a with no fault returns b, if no step of the external master to a comes between, or there is no external master, or the chip
stays selected (no DESELECT comes between). -/
def Obligations.ReadAfterWriteReturnsTheByte : Prop :=
  ∀ (s u : State) (a : Addr) (b : Byte) (mid rest : List Input) (between : List (Addr × Byte)), s.Inv → s.writeReady = true →
    s.inputs = .command (encode (.write a b)) :: (mid ++ .command (encode (.read a)) :: rest) →
    (∀ d, Input.reset d ∉ mid) →
    ((∀ v, Input.extWrite a v ∉ mid) ∨ s.params.externalMaster = false ∨
      ∀ w, Input.command w ∈ mid → decode w ≠ .instr .deselect) →
    runSteps (mid.length + 1) s = .next u → u.readReady = true →
    commits u.trace = commits s.trace ++ (a, b) :: between → (∀ c, c ∈ between → c.1 ≠ a) →
    ∃ t, runSteps (mid.length + 2) s = .next t ∧ t.regs.rdata = b ∧ t.rspValid = true ∧
      t.responses = u.responses ++ [b] ∧ t.record = u.record

/-- Rules R59, R101: from a state that is not in contention, OE_OFF, SAFE_DIR_OUT, OPEN_READ, OPEN_WRITE and CLOSE record no fault. -/
def Obligations.PseudoCommandsDoNotContend : Prop :=
  ∀ (s t : State) (l : SourceLine) (is : List Instr), s.Inv → s.pins.contended = false →
    (∃ a, l = .oeOff a ∨ l = .safeDirOut a ∨ l = .openWrite a) ∨ l = .openRead ∨ l = .close →
    assembleLine l = .ok is →
    s.inputs = is.map (fun i => .command (encode i)) →
    runSteps is.length s = .next t → t.record = s.record
end

