-- ==== Sys2Proof/Laws/Memory.lean ====
section
/-! SUPPORT. The laws of the SRAM array: read after write, and that every memory operation keeps the canonical form. -/

namespace Sys2Proof.Machine

theorem Memory.wfFrom_cons {lo k : Nat} {b : Byte} {rest : Memory} :
    Memory.wfFrom lo ((k, b) :: rest) = true ↔
      lo ≤ k ∧ k < 65536 ∧ b ≠ Memory.unlisted ∧ Memory.wfFrom (k + 1) rest = true := by
  simp [Memory.wfFrom, and_assoc]

/-- The bound may be lowered. -/
theorem Memory.wfFrom_mono {m : Memory} {lo lo' : Nat} (h : lo' ≤ lo) (hm : Memory.wfFrom lo m = true) :
    Memory.wfFrom lo' m = true := by
  cases m with
  | nil => rfl
  | cons c rest =>
    obtain ⟨k, b⟩ := c
    rw [Memory.wfFrom_cons] at hm ⊢
    exact ⟨h.trans hm.1, hm.2⟩

/-- Below the first listed address every cell is unlisted. -/
theorem Memory.readAt_below {m : Memory} {lo a : Nat} (hm : Memory.wfFrom lo m = true) (h : a < lo) :
    Memory.readAt m a = Memory.unlisted := by
  induction m generalizing lo with
  | nil => rfl
  | cons c rest ih =>
    obtain ⟨k, b⟩ := c
    obtain ⟨hk, -, -, hrest⟩ := Memory.wfFrom_cons.mp hm
    rw [Memory.readAt, if_neg (by omega)]
    exact ih hrest (by omega)

/-- Reading a number after a write, in a canonical array. -/
theorem Memory.readAt_writeAt {m : Memory} {lo a b : Nat} {v : Byte} (hm : Memory.wfFrom lo m = true) :
    Memory.readAt (Memory.writeAt m a v) b = if a = b then v else Memory.readAt m b := by
  induction m generalizing lo with
  | nil => by_cases hv : v = Memory.unlisted <;> simp [Memory.writeAt, Memory.readAt, hv]
  | cons c rest ih =>
    obtain ⟨k, x⟩ := c
    obtain ⟨-, -, -, hrest⟩ := Memory.wfFrom_cons.mp hm
    have below : b < k + 1 → Memory.readAt rest b = Memory.unlisted := Memory.readAt_below hrest
    have ih := ih hrest
    grind [Memory.writeAt, Memory.readAt]

/-- A write keeps the canonical form. -/
theorem Memory.wfFrom_writeAt {m : Memory} {lo a : Nat} {v : Byte} (hm : Memory.wfFrom lo m = true) (hlo : lo ≤ a)
    (ha : a < 65536) : Memory.wfFrom lo (Memory.writeAt m a v) = true := by
  induction m generalizing lo with
  | nil =>
    by_cases hv : v = Memory.unlisted
    · simp [Memory.writeAt, hv, Memory.wfFrom]
    · simp [Memory.writeAt, hv, Memory.wfFrom, hlo, ha]
  | cons c rest ih =>
    obtain ⟨k, x⟩ := c
    obtain ⟨hk, hk2, hx, hrest⟩ := Memory.wfFrom_cons.mp hm
    unfold Memory.writeAt
    split_ifs with h1 hv h2 hv
    · exact hm
    · exact Memory.wfFrom_cons.mpr ⟨hlo, ha, hv, Memory.wfFrom_cons.mpr ⟨h1, hk2, hx, hrest⟩⟩
    · exact Memory.wfFrom_mono (by omega) hrest
    · exact Memory.wfFrom_cons.mpr ⟨hk, hk2, hv, hrest⟩
    · exact Memory.wfFrom_cons.mpr ⟨hk, hk2, hx, ih hrest (by omega)⟩

/-- Two canonical arrays that read alike everywhere are the same data. -/
theorem Memory.eq_of_readAt {m n : Memory} {lo : Nat} (hm : Memory.wfFrom lo m = true) (hn : Memory.wfFrom lo n = true)
    (h : ∀ a, Memory.readAt m a = Memory.readAt n a) : m = n := by
  induction m generalizing n lo with
  | nil =>
    cases n with
    | nil => rfl
    | cons c rest =>
      obtain ⟨k, x⟩ := c
      have := h k
      simp only [Memory.readAt, if_true] at this
      exact absurd this.symm (Memory.wfFrom_cons.mp hn).2.2.1
  | cons c rest ih =>
    obtain ⟨k, x⟩ := c
    obtain ⟨-, -, hx, hrest⟩ := Memory.wfFrom_cons.mp hm
    cases n with
    | nil =>
      have := h k
      simp only [Memory.readAt, if_true] at this
      exact absurd this hx
    | cons d rest' =>
      obtain ⟨j, y⟩ := d
      obtain ⟨-, -, hy, hrest'⟩ := Memory.wfFrom_cons.mp hn
      have hkj : k = j := by
        rcases Nat.lt_trichotomy k j with hlt | heq | hgt
        · have := h k
          rw [Memory.readAt, if_pos rfl, Memory.readAt, if_neg (by omega), Memory.readAt_below hrest' (by omega)] at this
          exact absurd this hx
        · exact heq
        · have := h j
          rw [Memory.readAt, if_neg (by omega), Memory.readAt, if_pos rfl, Memory.readAt_below hrest (by omega)] at this
          exact absurd this.symm hy
      subst hkj
      have hxy : x = y := by simpa [Memory.readAt] using h k
      subst hxy
      rw [ih hrest hrest' fun a => ?_]
      by_cases hak : k = a
      · subst hak
        rw [Memory.readAt_below hrest (by omega), Memory.readAt_below hrest' (by omega)]
      · simpa [Memory.readAt, hak] using h a

/-! ### In terms of addresses -/

/-- `MemRead` after `MemWrite` (rule R11). -/
theorem Memory.read_write {m : Memory} (hm : m.wf = true) (a b : Addr) (v : Byte) :
    (m.write a v).read b = if a = b then v else m.read b := by
  rw [Memory.read, Memory.write, Memory.readAt_writeAt (lo := 0) hm, Memory.read]
  simp only [BitVec.toNat_inj]

theorem Memory.read_write_same {m : Memory} (hm : m.wf = true) (a : Addr) (v : Byte) : (m.write a v).read a = v := by
  rw [Memory.read_write hm, if_pos rfl]

theorem Memory.read_write_other {m : Memory} (hm : m.wf = true) {a b : Addr} (h : a ≠ b) (v : Byte) :
    (m.write a v).read b = m.read b := by
  rw [Memory.read_write hm, if_neg h]

/-- `MemWrite` keeps the canonical form. -/
@[simp] theorem Memory.wf_write {m : Memory} (hm : m.wf = true) (a : Addr) (v : Byte) : (m.write a v).wf = true :=
  Memory.wfFrom_writeAt hm (Nat.zero_le _) a.isLt

/-- Writing the byte a cell has changes nothing. -/
theorem Memory.write_read {m : Memory} (hm : m.wf = true) (a : Addr) : m.write a (m.read a) = m := by
  refine Memory.eq_of_readAt (Memory.wf_write hm a _) hm fun b => ?_
  rw [Memory.write, Memory.readAt_writeAt (lo := 0) hm]
  split_ifs with h
  · subst h; rfl
  · rfl

/-- The later of two writes to one cell stands (rule R82). -/
theorem Memory.write_write {m : Memory} (hm : m.wf = true) (a : Addr) (u v : Byte) : (m.write a u).write a v = m.write a v := by
  refine Memory.eq_of_readAt (Memory.wf_write (Memory.wf_write hm a u) a v) (Memory.wf_write hm a v) fun b => ?_
  have hw := Memory.wf_write hm a u
  simp only [Memory.write] at hw ⊢
  rw [Memory.readAt_writeAt (lo := 0) hw, Memory.readAt_writeAt (lo := 0) hm, Memory.readAt_writeAt (lo := 0) hm]
  split_ifs <;> rfl

theorem Memory.wf_foldl_write (cells : List (Addr × Byte)) :
    ∀ m : Memory, m.wf = true → Memory.wf (cells.foldl (fun m c => Memory.write m c.1 c.2) m) = true := by
  induction cells with
  | nil => exact fun _ h => h
  | cons c rest ih => exact fun m h => ih _ (Memory.wf_write h c.1 c.2)

/-- The contents a reset draws are canonical. -/
@[simp] theorem Memory.wf_ofCells (cells : List (Addr × Byte)) : (Memory.ofCells cells).wf = true :=
  Memory.wf_foldl_write cells [] rfl

/-- Reset memory lists nothing. -/
@[simp] theorem Memory.wf_reset : State.reset.mem.wf = true := rfl

end Sys2Proof.Machine
end

