-- ==== Sys2Proof/Laws/State.lean ====
section
/-! SUPPORT. What each update of State does to each field: one lemma per field per update, so that no proof unfolds an update. -/

namespace Sys2Proof.Machine

/-! ### raiseFault -/

@[simp] theorem raiseFault_params (code : FaultCode) (w : Word) (s : State) : (raiseFault code w s).params = s.params := rfl
@[simp] theorem raiseFault_seq (code : FaultCode) (w : Word) (s : State) : (raiseFault code w s).seq = s.seq := rfl
@[simp] theorem raiseFault_pins (code : FaultCode) (w : Word) (s : State) : (raiseFault code w s).pins = s.pins := rfl
@[simp] theorem raiseFault_regs (code : FaultCode) (w : Word) (s : State) : (raiseFault code w s).regs = s.regs := rfl
@[simp] theorem raiseFault_rspValid (code : FaultCode) (w : Word) (s : State) : (raiseFault code w s).rspValid = s.rspValid := rfl
@[simp] theorem raiseFault_mem (code : FaultCode) (w : Word) (s : State) : (raiseFault code w s).mem = s.mem := rfl
@[simp] theorem raiseFault_record (code : FaultCode) (w : Word) (s : State) : (raiseFault code w s).record = s.record.raise code w := rfl
@[simp] theorem raiseFault_inputs (code : FaultCode) (w : Word) (s : State) : (raiseFault code w s).inputs = s.inputs := rfl
@[simp] theorem raiseFault_responses (code : FaultCode) (w : Word) (s : State) : (raiseFault code w s).responses = s.responses := rfl
@[simp] theorem raiseFault_trace (code : FaultCode) (w : Word) (s : State) : (raiseFault code w s).trace = s.trace := rfl
@[simp] theorem raiseFault_draws (code : FaultCode) (w : Word) (s : State) : (raiseFault code w s).draws = s.draws := rfl

/-! ### raiseFaultIf -/

@[simp] theorem raiseFaultIf_params (c : Bool) (code : FaultCode) (w : Word) (s : State) : (raiseFaultIf c code w s).params = s.params := rfl
@[simp] theorem raiseFaultIf_seq (c : Bool) (code : FaultCode) (w : Word) (s : State) : (raiseFaultIf c code w s).seq = s.seq := rfl
@[simp] theorem raiseFaultIf_pins (c : Bool) (code : FaultCode) (w : Word) (s : State) : (raiseFaultIf c code w s).pins = s.pins := rfl
@[simp] theorem raiseFaultIf_regs (c : Bool) (code : FaultCode) (w : Word) (s : State) : (raiseFaultIf c code w s).regs = s.regs := rfl
@[simp] theorem raiseFaultIf_rspValid (c : Bool) (code : FaultCode) (w : Word) (s : State) : (raiseFaultIf c code w s).rspValid = s.rspValid := rfl
@[simp] theorem raiseFaultIf_mem (c : Bool) (code : FaultCode) (w : Word) (s : State) : (raiseFaultIf c code w s).mem = s.mem := rfl
@[simp] theorem raiseFaultIf_record (c : Bool) (code : FaultCode) (w : Word) (s : State) : (raiseFaultIf c code w s).record = s.record.raiseIf c code w := rfl
@[simp] theorem raiseFaultIf_inputs (c : Bool) (code : FaultCode) (w : Word) (s : State) : (raiseFaultIf c code w s).inputs = s.inputs := rfl
@[simp] theorem raiseFaultIf_responses (c : Bool) (code : FaultCode) (w : Word) (s : State) : (raiseFaultIf c code w s).responses = s.responses := rfl
@[simp] theorem raiseFaultIf_trace (c : Bool) (code : FaultCode) (w : Word) (s : State) : (raiseFaultIf c code w s).trace = s.trace := rfl
@[simp] theorem raiseFaultIf_draws (c : Bool) (code : FaultCode) (w : Word) (s : State) : (raiseFaultIf c code w s).draws = s.draws := rfl

/-! ### logEventIf -/

@[simp] theorem logEventIf_params (c : Bool) (e : Event) (s : State) : (logEventIf c e s).params = s.params := rfl
@[simp] theorem logEventIf_seq (c : Bool) (e : Event) (s : State) : (logEventIf c e s).seq = s.seq := rfl
@[simp] theorem logEventIf_pins (c : Bool) (e : Event) (s : State) : (logEventIf c e s).pins = s.pins := rfl
@[simp] theorem logEventIf_regs (c : Bool) (e : Event) (s : State) : (logEventIf c e s).regs = s.regs := rfl
@[simp] theorem logEventIf_rspValid (c : Bool) (e : Event) (s : State) : (logEventIf c e s).rspValid = s.rspValid := rfl
@[simp] theorem logEventIf_mem (c : Bool) (e : Event) (s : State) : (logEventIf c e s).mem = s.mem := rfl
@[simp] theorem logEventIf_record (c : Bool) (e : Event) (s : State) : (logEventIf c e s).record = s.record := rfl
@[simp] theorem logEventIf_inputs (c : Bool) (e : Event) (s : State) : (logEventIf c e s).inputs = s.inputs := rfl
@[simp] theorem logEventIf_responses (c : Bool) (e : Event) (s : State) : (logEventIf c e s).responses = s.responses := rfl
@[simp] theorem logEventIf_trace (c : Bool) (e : Event) (s : State) : (logEventIf c e s).trace = if c then e :: s.trace else s.trace := rfl
@[simp] theorem logEventIf_draws (c : Bool) (e : Event) (s : State) : (logEventIf c e s).draws = s.draws := rfl

/-! ### useDraw -/

@[simp] theorem useDraw_params (s : State) : (s.useDraw).params = s.params := rfl
@[simp] theorem useDraw_seq (s : State) : (s.useDraw).seq = s.seq := rfl
@[simp] theorem useDraw_pins (s : State) : (s.useDraw).pins = s.pins := rfl
@[simp] theorem useDraw_regs (s : State) : (s.useDraw).regs = s.regs := rfl
@[simp] theorem useDraw_rspValid (s : State) : (s.useDraw).rspValid = s.rspValid := rfl
@[simp] theorem useDraw_mem (s : State) : (s.useDraw).mem = s.mem := rfl
@[simp] theorem useDraw_record (s : State) : (s.useDraw).record = s.record := rfl
@[simp] theorem useDraw_inputs (s : State) : (s.useDraw).inputs = s.inputs := rfl
@[simp] theorem useDraw_responses (s : State) : (s.useDraw).responses = s.responses := rfl
@[simp] theorem useDraw_trace (s : State) : (s.useDraw).trace = s.trace := rfl
@[simp] theorem useDraw_draws (s : State) : (s.useDraw).draws = s.draws + 1 := rfl

/-! ### primApply -/

@[simp] theorem primApply_params (p : Prim) (s : State) : (p.apply s).params = s.params := rfl
@[simp] theorem primApply_seq (p : Prim) (s : State) : (p.apply s).seq = s.seq := rfl
@[simp] theorem primApply_pins (p : Prim) (s : State) : (p.apply s).pins = p.onPins s.pins := rfl
@[simp] theorem primApply_regs (p : Prim) (s : State) : (p.apply s).regs = p.onRegs s.regs := rfl
@[simp] theorem primApply_rspValid (p : Prim) (s : State) : (p.apply s).rspValid = s.rspValid := rfl
@[simp] theorem primApply_mem (p : Prim) (s : State) : (p.apply s).mem = s.mem := rfl
@[simp] theorem primApply_record (p : Prim) (s : State) : (p.apply s).record = s.record := rfl
@[simp] theorem primApply_inputs (p : Prim) (s : State) : (p.apply s).inputs = s.inputs := rfl
@[simp] theorem primApply_responses (p : Prim) (s : State) : (p.apply s).responses = s.responses := rfl
@[simp] theorem primApply_trace (p : Prim) (s : State) : (p.apply s).trace = if decide (p = .settle) then .settle :: s.trace else s.trace := rfl
@[simp] theorem primApply_draws (p : Prim) (s : State) : (p.apply s).draws = s.draws := rfl

/-! ### contentionCheck -/

@[simp] theorem contentionCheck_params (w : Word) (s : State) : (contentionCheck w s).params = s.params := rfl
@[simp] theorem contentionCheck_seq (w : Word) (s : State) : (contentionCheck w s).seq = s.seq := rfl
@[simp] theorem contentionCheck_pins (w : Word) (s : State) : (contentionCheck w s).pins = s.pins := rfl
@[simp] theorem contentionCheck_regs (w : Word) (s : State) : (contentionCheck w s).regs = s.regs := rfl
@[simp] theorem contentionCheck_rspValid (w : Word) (s : State) : (contentionCheck w s).rspValid = s.rspValid := rfl
@[simp] theorem contentionCheck_mem (w : Word) (s : State) : (contentionCheck w s).mem = s.mem := rfl
@[simp] theorem contentionCheck_record (w : Word) (s : State) : (contentionCheck w s).record = s.contentionRecord w := rfl
@[simp] theorem contentionCheck_inputs (w : Word) (s : State) : (contentionCheck w s).inputs = s.inputs := rfl
@[simp] theorem contentionCheck_responses (w : Word) (s : State) : (contentionCheck w s).responses = s.responses := rfl
@[simp] theorem contentionCheck_trace (w : Word) (s : State) : (contentionCheck w s).trace = if s.pins.contended then .contention :: s.trace else s.trace := rfl
@[simp] theorem contentionCheck_draws (w : Word) (s : State) : (contentionCheck w s).draws = s.draws := rfl

/-! ### respond -/

@[simp] theorem respond_params (v : Byte) (s : State) : (respond v s).params = s.params := rfl
@[simp] theorem respond_seq (v : Byte) (s : State) : (respond v s).seq = s.seq := rfl
@[simp] theorem respond_pins (v : Byte) (s : State) : (respond v s).pins = s.pins := rfl
@[simp] theorem respond_regs (v : Byte) (s : State) : (respond v s).regs = { s.regs with rdata := v } := rfl
@[simp] theorem respond_rspValid (v : Byte) (s : State) : (respond v s).rspValid = true := rfl
@[simp] theorem respond_mem (v : Byte) (s : State) : (respond v s).mem = s.mem := rfl
@[simp] theorem respond_record (v : Byte) (s : State) : (respond v s).record = s.record := rfl
@[simp] theorem respond_inputs (v : Byte) (s : State) : (respond v s).inputs = s.inputs := rfl
@[simp] theorem respond_responses (v : Byte) (s : State) : (respond v s).responses = s.responses ++ [v] := rfl
@[simp] theorem respond_trace (v : Byte) (s : State) : (respond v s).trace = s.trace := rfl
@[simp] theorem respond_draws (v : Byte) (s : State) : (respond v s).draws = s.draws := rfl

/-! ### accept -/

@[simp] theorem accept_params (rest : List Input) (s : State) : (accept rest s).params = s.params := rfl
@[simp] theorem accept_seq (rest : List Input) (s : State) : (accept rest s).seq = .busy := rfl
@[simp] theorem accept_pins (rest : List Input) (s : State) : (accept rest s).pins = s.pins := rfl
@[simp] theorem accept_regs (rest : List Input) (s : State) : (accept rest s).regs = s.regs := rfl
@[simp] theorem accept_rspValid (rest : List Input) (s : State) : (accept rest s).rspValid = false := rfl
@[simp] theorem accept_mem (rest : List Input) (s : State) : (accept rest s).mem = s.mem := rfl
@[simp] theorem accept_record (rest : List Input) (s : State) : (accept rest s).record = s.record := rfl
@[simp] theorem accept_inputs (rest : List Input) (s : State) : (accept rest s).inputs = rest := rfl
@[simp] theorem accept_responses (rest : List Input) (s : State) : (accept rest s).responses = s.responses := rfl
@[simp] theorem accept_trace (rest : List Input) (s : State) : (accept rest s).trace = s.trace := rfl
@[simp] theorem accept_draws (rest : List Input) (s : State) : (accept rest s).draws = s.draws := rfl

/-! ### waitForHost -/

@[simp] theorem waitForHost_params (s : State) : (waitForHost s).params = s.params := rfl
@[simp] theorem waitForHost_seq (s : State) : (waitForHost s).seq = s.seq := rfl
@[simp] theorem waitForHost_pins (s : State) : (waitForHost s).pins = s.pins := rfl
@[simp] theorem waitForHost_regs (s : State) : (waitForHost s).regs = s.regs := rfl
@[simp] theorem waitForHost_rspValid (s : State) : (waitForHost s).rspValid = false := rfl
@[simp] theorem waitForHost_mem (s : State) : (waitForHost s).mem = s.mem := rfl
@[simp] theorem waitForHost_record (s : State) : (waitForHost s).record = s.record := rfl
@[simp] theorem waitForHost_inputs (s : State) : (waitForHost s).inputs = s.inputs := rfl
@[simp] theorem waitForHost_responses (s : State) : (waitForHost s).responses = s.responses := rfl
@[simp] theorem waitForHost_trace (s : State) : (waitForHost s).trace = s.trace := rfl
@[simp] theorem waitForHost_draws (s : State) : (waitForHost s).draws = s.draws := rfl

/-! ### offerWord -/

@[simp] theorem offerWord_params (w : Word) (s : State) : (offerWord w s).params = s.params := rfl
@[simp] theorem offerWord_seq (w : Word) (s : State) : (offerWord w s).seq = .idle := rfl
@[simp] theorem offerWord_pins (w : Word) (s : State) : (offerWord w s).pins = s.pins := rfl
@[simp] theorem offerWord_regs (w : Word) (s : State) : (offerWord w s).regs = s.regs := rfl
@[simp] theorem offerWord_rspValid (w : Word) (s : State) : (offerWord w s).rspValid = s.rspValid := rfl
@[simp] theorem offerWord_mem (w : Word) (s : State) : (offerWord w s).mem = s.mem := rfl
@[simp] theorem offerWord_record (w : Word) (s : State) : (offerWord w s).record = s.record := rfl
@[simp] theorem offerWord_inputs (w : Word) (s : State) : (offerWord w s).inputs = .command w :: s.inputs := rfl
@[simp] theorem offerWord_responses (w : Word) (s : State) : (offerWord w s).responses = s.responses := rfl
@[simp] theorem offerWord_trace (w : Word) (s : State) : (offerWord w s).trace = s.trace := rfl
@[simp] theorem offerWord_draws (w : Word) (s : State) : (offerWord w s).draws = s.draws := rfl

/-! ### Updates with an alternative -/

@[simp] theorem afterBus_pins (s : State) : s.afterBus.pins = s.pins := by unfold State.afterBus; split <;> rfl
@[simp] theorem afterBus_regs (s : State) : s.afterBus.regs = s.regs := by unfold State.afterBus; split <;> rfl
@[simp] theorem afterBus_mem (s : State) : s.afterBus.mem = s.mem := by unfold State.afterBus; split <;> rfl
@[simp] theorem afterBus_record (s : State) : s.afterBus.record = s.record := by unfold State.afterBus; split <;> rfl
@[simp] theorem afterBus_trace (s : State) : s.afterBus.trace = s.trace := by unfold State.afterBus; split <;> rfl
@[simp] theorem afterBus_params (s : State) : s.afterBus.params = s.params := by unfold State.afterBus; split <;> rfl

/-- All of it: only the draw count may move. -/
theorem afterBus_eq (s : State) : s.afterBus = { s with draws := if s.pins.busFloats then s.draws + 1 else s.draws } := by
  unfold State.afterBus State.useDraw; split <;> rfl

/-! ### The state without its trace -/

@[simp] theorem noTrace_params (s : State) : s.noTrace.params = s.params := rfl
@[simp] theorem noTrace_seq (s : State) : s.noTrace.seq = s.seq := rfl
@[simp] theorem noTrace_pins (s : State) : s.noTrace.pins = s.pins := rfl
@[simp] theorem noTrace_regs (s : State) : s.noTrace.regs = s.regs := rfl
@[simp] theorem noTrace_rspValid (s : State) : s.noTrace.rspValid = s.rspValid := rfl
@[simp] theorem noTrace_mem (s : State) : s.noTrace.mem = s.mem := rfl
@[simp] theorem noTrace_record (s : State) : s.noTrace.record = s.record := rfl
@[simp] theorem noTrace_inputs (s : State) : s.noTrace.inputs = s.inputs := rfl
@[simp] theorem noTrace_responses (s : State) : s.noTrace.responses = s.responses := rfl
@[simp] theorem noTrace_draws (s : State) : s.noTrace.draws = s.draws := rfl

/-- Two states that agree without their traces differ at most in the trace. -/
theorem noTrace_eq_iff (s t : State) : s.noTrace = t.noTrace ↔ s = { t with trace := s.trace } := by
  constructor
  · intro h
    cases s; cases t
    simp only [State.noTrace, State.mk.injEq] at h ⊢
    simp_all
  · intro h; rw [h]; rfl

end Sys2Proof.Machine
end

