-- ==== Sys2Proof/Laws/Ops.lean ====
section
/-! SUPPORT. What the shared operations can do, said once: the fault record, a primitive with its reactions, the micro-operation
procedures of rules R62 to R65. The trace is left open in these lemmas (`∃ tr`); Laws/Trace.lean says what it gains. -/

namespace Sys2Proof.Machine

/-! ### The fault record -/

@[simp] theorem FaultRecord.raise_raise (r : FaultRecord) (c : FaultCode) (w : Word) :
    (r.raise c w).raise c w = r.raise c w := by
  rcases r with ⟨f, _ | d, cmd⟩ <;> cases c <;> rfl

/-- A fault that holds on is recorded once. -/
@[simp] theorem FaultRecord.raiseIf_raiseIf (r : FaultRecord) (b : Bool) (c : FaultCode) (w : Word) :
    (r.raiseIf b c w).raiseIf b c w = r.raiseIf b c w := by
  cases b <;> simp [FaultRecord.raiseIf]

@[simp] theorem FaultRecord.raiseIf_false (r : FaultRecord) (c : FaultCode) (w : Word) : r.raiseIf false c w = r := rfl

@[simp] theorem FaultRecord.raiseIf_true (r : FaultRecord) (c : FaultCode) (w : Word) : r.raiseIf true c w = r.raise c w := rfl

/-- Two checks of one fault record it if either holds. -/
theorem FaultRecord.raiseIf_or (r : FaultRecord) (b b' : Bool) (c : FaultCode) (w : Word) :
    (r.raiseIf b c w).raiseIf b' c w = r.raiseIf (b || b') c w := by
  cases b <;> cases b' <;> simp [FaultRecord.raiseIf]

/-! ### Logging only adds to the trace -/

theorem logPin_eq (before s : State) (q : Pin) : ∃ tr, logPin before s q = { s with trace := tr } := ⟨_, rfl⟩

theorem foldl_logPin_eq (before : State) (qs : List Pin) :
    ∀ s : State, ∃ tr, qs.foldl (logPin before) s = { s with trace := tr } := by
  induction qs with
  | nil => exact fun s => ⟨s.trace, rfl⟩
  | cons q qs ih =>
    intro s
    obtain ⟨tr, h⟩ := logPin_eq before s q
    obtain ⟨tr', h'⟩ := ih { s with trace := tr }
    exact ⟨tr', by rw [List.foldl_cons, h, h']⟩

theorem logChanges_eq (before s : State) : ∃ tr, logChanges before s = { s with trace := tr } := by
  obtain ⟨tr, h⟩ := foldl_logPin_eq before [Pin.ser, .sclk, .rclk, .oeN, .csN, .weN] s
  exact ⟨_, by rw [logChanges, h]; rfl⟩

/-! ### One primitive -/

/-- The pin drivers after a primitive. -/
abbrev Prim.pinsAfter (p : Prim) (s : State) : Pins := p.onPins s.pins

/-- The registers after a primitive and the shift register's and the latch's reactions. -/
abbrev Prim.regsAfter (p : Prim) (s : State) : Regs :=
  latchReaction s.pins (p.onPins s.pins) (shiftReaction s.pins (p.onPins s.pins) (p.onRegs s.regs))

/-- The state after a primitive at which no strobe ends and no cell is lost. -/
theorem runPrim_quiet (w : Word) (s : State) (p : Prim) (hc : strobeEnds s.pins (p.onPins s.pins) = false)
    (hl : cellLost s { s with pins := p.pinsAfter s, regs := p.regsAfter s } = false) :
    ∃ tr, runPrim w s p =
      { s with
        pins := p.pinsAfter s
        regs := p.regsAfter s
        record := s.record.raiseIf ((p.onPins s.pins).contended && s.params.contentionIsFault) .busContention w
        trace := tr } := by
  obtain ⟨tr, h⟩ := logChanges_eq s (p.apply s)
  rw [runPrim, reactions, h]
  rw [show commitReaction s _ = _ from if_neg (by rw [Bool.not_eq_true]; exact hc)]
  rw [show lostReaction s _ = _ from if_neg (by rw [Bool.not_eq_true]; exact hl)]
  exact ⟨_, rfl⟩

/-- No write strobe is on, and WE_n is driven while CS_n = 0: what holds at every primitive but WRITE's strobe. -/
structure Pins.Calm (p : Pins) : Prop where
  notLow : p.weN ≠ .low
  paired : p.csN = false → p.weN = .high

theorem Pins.Resting.calm {p : Pins} (h : p.Resting) : p.Calm := by
  obtain ⟨h1, h2, -, -⟩ := h
  rcases p with ⟨cs, m, l, oe, d, a, b, c⟩
  cases m <;> simp_all <;> constructor <;> simp_all [Pins.weN, levelOf]

/-- A primitive between two calm moments ends no strobe and loses no cell. -/
theorem runPrim_calm (w : Word) (s : State) (p : Prim) (h0 : s.pins.Calm) (h1 : (p.onPins s.pins).Calm) :
    ∃ tr, runPrim w s p =
      { s with
        pins := p.pinsAfter s
        regs := p.regsAfter s
        record := s.record.raiseIf ((p.onPins s.pins).contended && s.params.contentionIsFault) .busContention w
        trace := tr } := by
  refine runPrim_quiet w s p ?_ ?_
  · simp [strobeEnds, risingEdge, rises, Pins.level, h0.notLow, h1.notLow]
  · simp only [cellLost, h1.notLow, decide_false, Bool.and_false, Bool.or_false]
    cases hcs : (p.onPins s.pins).csN with
    | true => rfl
    | false => simp [h1.paired hcs]

/-! ### A sequence of primitives -/

/-- The pin drivers after a sequence. -/
def pinsAfter (ps : List Prim) (p : Pins) : Pins := ps.foldl (fun p q => q.onPins p) p

/-- The registers after a sequence, the reactions of the shift register and the latch included. -/
def regsAfter : List Prim → Pins → Regs → Regs
  | [], _, r => r
  | q :: qs, p, r => regsAfter qs (q.onPins p) (latchReaction p (q.onPins p) (shiftReaction p (q.onPins p) (q.onRegs r)))

/-- Contention holds after some primitive of a sequence. -/
def contendedIn : List Prim → Pins → Bool
  | [], _ => false
  | q :: qs, p => (q.onPins p).contended || contendedIn qs (q.onPins p)

/-- Every moment of a sequence is calm. -/
def CalmIn : List Prim → Pins → Prop
  | [], p => p.Calm
  | q :: qs, p => p.Calm ∧ CalmIn qs (q.onPins p)

theorem CalmIn.head {ps : List Prim} {p : Pins} (h : CalmIn ps p) : p.Calm := by
  cases ps with
  | nil => exact h
  | cons q qs => exact h.1

theorem pinsAfter_append (ps qs : List Prim) (p : Pins) : pinsAfter (ps ++ qs) p = pinsAfter qs (pinsAfter ps p) :=
  List.foldl_append

theorem regsAfter_append (ps qs : List Prim) (p : Pins) (r : Regs) :
    regsAfter (ps ++ qs) p r = regsAfter qs (pinsAfter ps p) (regsAfter ps p r) := by
  induction ps generalizing p r with
  | nil => rfl
  | cons q ps ih => exact ih _ _

theorem contendedIn_append (ps qs : List Prim) (p : Pins) :
    contendedIn (ps ++ qs) p = (contendedIn ps p || contendedIn qs (pinsAfter ps p)) := by
  induction ps generalizing p with
  | nil => rfl
  | cons q ps ih => simp [contendedIn, ih, pinsAfter, Bool.or_assoc]

theorem calmIn_append {ps qs : List Prim} {p : Pins} (h : CalmIn ps p) (h' : CalmIn qs (pinsAfter ps p)) :
    CalmIn (ps ++ qs) p := by
  induction ps generalizing p with
  | nil => exact h'
  | cons q ps ih => exact ⟨h.1, ih h.2 h'⟩

theorem runPrims_append (w : Word) (ps qs : List Prim) (s : State) :
    runPrims w (ps ++ qs) s = runPrims w qs (runPrims w ps s) := List.foldl_append

/-- A calm sequence runs on the pins and registers alone; M is untouched, no draw is taken, and contention at any of its moments is
recorded (rules R37, R40). -/
theorem runPrims_calm (w : Word) (ps : List Prim) (s : State) (h : CalmIn ps s.pins) :
    ∃ tr, runPrims w ps s =
      { s with
        pins := pinsAfter ps s.pins
        regs := regsAfter ps s.pins s.regs
        record := s.record.raiseIf (contendedIn ps s.pins && s.params.contentionIsFault) .busContention w
        trace := tr } := by
  induction ps generalizing s with
  | nil => exact ⟨s.trace, rfl⟩
  | cons q qs ih =>
    obtain ⟨tr, h1⟩ := runPrim_calm w s q h.1 h.2.head
    obtain ⟨tr', h2⟩ := ih (runPrim w s q) (by rw [h1]; exact h.2)
    refine ⟨tr', ?_⟩
    rw [show runPrims w (q :: qs) s = runPrims w qs (runPrim w s q) from rfl, h2, h1]
    simp only [FaultRecord.raiseIf_or, contendedIn, Bool.and_or_distrib_right]
    rfl

/-! ### The micro-operation procedures -/

/-- `ShiftBit(b)` leaves the pins but SER (rule R62). -/
theorem shiftBit_pins (b : Bool) (p : Pins) (h : p.sclk = false) : pinsAfter (shiftBit b) p = { p with ser := b } := by
  rcases p; subst h; rfl

/-- `ShiftBit(b)` shifts `b` in (rules R60, R62). -/
theorem shiftBit_regs (b : Bool) (p : Pins) (r : Regs) (h : p.sclk = false) :
    regsAfter (shiftBit b) p r = { r with sr := shiftIn r.sr b } := by
  rcases p with ⟨cs, m, l, oe, d, se, sc, rc⟩
  subst h
  cases rc <;> rfl

theorem shiftBit_contended (b : Bool) (p : Pins) : contendedIn (shiftBit b) p = p.contended := by
  change (p.contended || (p.contended || (p.contended || (p.contended || (p.contended || (p.contended || false)))))) = _
  cases p.contended <;> rfl

theorem shiftBit_calm (b : Bool) (p : Pins) (h : p.Calm) : CalmIn (shiftBit b) p :=
  ⟨h, ⟨h.1, h.2⟩, ⟨h.1, h.2⟩, ⟨h.1, h.2⟩, ⟨h.1, h.2⟩, ⟨h.1, h.2⟩, ⟨h.1, h.2⟩⟩

/-- The last bit of a sequence, or what was there. -/
def lastBit (ser : Bool) (bs : List Bool) : Bool := bs.foldl (fun _ b => b) ser

theorem shiftBits_pins (bs : List Bool) (p : Pins) (h : p.sclk = false) :
    pinsAfter (bs.flatMap shiftBit) p = { p with ser := lastBit p.ser bs } := by
  induction bs generalizing p with
  | nil => rfl
  | cons b bs ih => rw [List.flatMap_cons, pinsAfter_append, shiftBit_pins b p h, ih { p with ser := b } h]; rfl

theorem shiftBits_regs (bs : List Bool) (p : Pins) (r : Regs) (h : p.sclk = false) :
    regsAfter (bs.flatMap shiftBit) p r = { r with sr := bs.foldl shiftIn r.sr } := by
  induction bs generalizing p r with
  | nil => rfl
  | cons b bs ih =>
    rw [List.flatMap_cons, regsAfter_append, shiftBit_pins b p h, shiftBit_regs b p r h, ih { p with ser := b } _ h]
    rfl

theorem shiftBits_contended (bs : List Bool) (p : Pins) (h : p.sclk = false) :
    contendedIn (bs.flatMap shiftBit) p = (!bs.isEmpty && p.contended) := by
  induction bs generalizing p with
  | nil => rfl
  | cons b bs ih =>
    rw [List.flatMap_cons, contendedIn_append, shiftBit_pins b p h, shiftBit_contended, ih { p with ser := b } h]
    have : ({ p with ser := b } : Pins).contended = p.contended := rfl
    rw [this]
    cases p.contended <;> simp

theorem shiftBits_calm (bs : List Bool) (p : Pins) (h : p.sclk = false) (hp : p.Calm) : CalmIn (bs.flatMap shiftBit) p := by
  induction bs generalizing p with
  | nil => exact hp
  | cons b bs ih =>
    rw [List.flatMap_cons]
    refine calmIn_append (shiftBit_calm b p hp) ?_
    rw [shiftBit_pins b p h]
    exact ih { p with ser := b } h ⟨hp.1, hp.2⟩

/-- The sixteen bits of an address in the order they are shifted (rules R41, R65). -/
def addrBits (a : Addr) : List Bool := bitsMsbFirst (addrHigh a) ++ bitsMsbFirst (addrLow a)

theorem setAddress_eq (a : Addr) (oe : Bool) :
    setAddress a oe = (addrBits a).flatMap shiftBit ++ (latchPulse ++ [.drive .oeN (!oe), .settle]) := by
  simp [setAddress, shiftOutByte, addrBits]

/-- Rule R66: sixteen shifts flush what SR held and leave the address. -/
theorem shiftIn_addrBits (a : Addr) (r : BitVec 16) : (addrBits a).foldl shiftIn r = a := by
  ext i hi
  simp only [addrBits, bitsMsbFirst, addrHigh, addrLow, List.cons_append, List.nil_append, List.foldl_cons, List.foldl_nil, shiftIn]
  interval_cases i <;> simp

/-- The last bit shifted is bit 0 of the address (rule R23). -/
theorem lastBit_addrBits (a : Addr) (b : Bool) : lastBit b (addrBits a) = a.getLsbD 0 := by
  simp [lastBit, addrBits, bitsMsbFirst, addrLow]

theorem latchPulse_pins (p : Pins) : pinsAfter latchPulse p = { p with rclk := false } := rfl

/-- The latch pulse copies SR to AL, whatever RCLK was (rules R61, R64). -/
theorem latchPulse_regs (p : Pins) (r : Regs) (h : p.sclk = false) : regsAfter latchPulse p r = { r with al := r.sr } := by
  rcases p with ⟨cs, m, l, o, d, se, sc, rc⟩
  subst h
  rcases r with ⟨sr, al, dout, rdata⟩
  cases rc <;> rfl

theorem latchPulse_contended (p : Pins) : contendedIn latchPulse p = p.contended := by
  change (p.contended || (p.contended || (p.contended || (p.contended || (p.contended || (p.contended || false)))))) = _
  cases p.contended <;> rfl

theorem latchPulse_calm (p : Pins) (h : p.Calm) : CalmIn latchPulse p :=
  ⟨h, ⟨h.1, h.2⟩, ⟨h.1, h.2⟩, ⟨h.1, h.2⟩, ⟨h.1, h.2⟩, ⟨h.1, h.2⟩, ⟨h.1, h.2⟩⟩

theorem driveOe_pins (v : Bool) (p : Pins) : pinsAfter [.drive .oeN v, .settle] p = { p with oeN := v } := rfl

theorem driveOe_regs (v : Bool) (p : Pins) (r : Regs) (h : p.sclk = false) :
    regsAfter [.drive .oeN v, .settle] p r = r := by
  rcases p with ⟨cs, m, l, o, d, se, sc, rc⟩
  subst h
  cases rc <;> rfl

theorem driveOe_contended (v : Bool) (p : Pins) :
    contendedIn [.drive .oeN v, .settle] p = ({ p with oeN := v } : Pins).contended := by
  change (({ p with oeN := v } : Pins).contended || (({ p with oeN := v } : Pins).contended || false)) = _
  cases ({ p with oeN := v } : Pins).contended <;> rfl

theorem driveOe_calm (v : Bool) (p : Pins) (h : p.Calm) : CalmIn [.drive .oeN v, .settle] p :=
  ⟨h, ⟨h.1, h.2⟩, ⟨h.1, h.2⟩⟩

/-- The pins after `SetAddress(a, oe)`: SER holds bit 0 of the address, OE_n <- NOT oe (rules R22, R23, R65). -/
theorem setAddress_pins (a : Addr) (oe : Bool) (p : Pins) (h : p.sclk = false) :
    pinsAfter (setAddress a oe) p = { p with ser := a.getLsbD 0, rclk := false, oeN := !oe } := by
  rw [setAddress_eq, pinsAfter_append, pinsAfter_append, shiftBits_pins _ p h, latchPulse_pins, driveOe_pins, lastBit_addrBits]

/-- The registers after `SetAddress(a, oe)`: SR = AL = a (rules R65, R66). -/
theorem setAddress_regs (a : Addr) (oe : Bool) (p : Pins) (r : Regs) (h : p.sclk = false) :
    regsAfter (setAddress a oe) p r = { r with sr := a, al := a } := by
  rw [setAddress_eq, regsAfter_append, regsAfter_append, shiftBits_pins _ p h, shiftBits_regs _ p r h, shiftIn_addrBits]
  generalize lastBit p.ser (addrBits a) = b
  have h' : ({ p with ser := b } : Pins).sclk = false := h
  generalize ({ p with ser := b } : Pins) = q at h'
  rw [latchPulse_pins, latchPulse_regs q _ h', driveOe_regs _ { q with rclk := false } _ h']

/-- Contention during `SetAddress(a, oe)`: it held at the start, or it holds once OE_n is driven (rule R68). -/
theorem setAddress_contended (a : Addr) (oe : Bool) (p : Pins) (h : p.sclk = false) :
    contendedIn (setAddress a oe) p = (p.contended || ({ p with oeN := !oe } : Pins).contended) := by
  rw [setAddress_eq, contendedIn_append, contendedIn_append, shiftBits_pins _ p h, shiftBits_contended _ p h,
    latchPulse_contended, latchPulse_pins, driveOe_contended]
  generalize lastBit p.ser (addrBits a) = b
  rw [show (addrBits a).isEmpty = false from rfl]
  change (true && p.contended || (p.contended || ({ p with oeN := !oe } : Pins).contended)) = _
  cases p.contended <;> rfl

theorem setAddress_calm (a : Addr) (oe : Bool) (p : Pins) (h : p.sclk = false) (hp : p.Calm) : CalmIn (setAddress a oe) p := by
  rw [setAddress_eq]
  refine calmIn_append (shiftBits_calm _ p h hp) ?_
  rw [shiftBits_pins _ p h]
  exact calmIn_append (latchPulse_calm _ ⟨hp.1, hp.2⟩) (driveOe_calm _ _ ⟨hp.1, hp.2⟩)

/-- Everything `SetAddress(a, oe)` does (rules R65 to R68). -/
theorem setAddress_spec (w : Word) (a : Addr) (oe : Bool) (s : State) (h : s.pins.sclk = false) (hp : s.pins.Calm) :
    ∃ tr, runPrims w (setAddress a oe) s =
      { s with
        pins := { s.pins with ser := a.getLsbD 0, rclk := false, oeN := !oe }
        regs := { s.regs with sr := a, al := a }
        record := s.record.raiseIf
          ((s.pins.contended || ({ s.pins with oeN := !oe } : Pins).contended) && s.params.contentionIsFault) .busContention w
        trace := tr } := by
  obtain ⟨tr, h'⟩ := runPrims_calm w _ s (setAddress_calm a oe _ h hp)
  exact ⟨tr, by rw [h', setAddress_pins _ _ _ h, setAddress_regs _ _ _ _ h, setAddress_contended _ _ _ h]⟩

/-! ### Sampling -/

/-- Rule R71: a byte driven on the lines and assembled from them is the byte. -/
@[simp] theorem byteOfLines_linesOf (b : Byte) : byteOfLines (linesOf b) = b := by
  ext i hi
  simp only [byteOfLines, linesOf, bitsMsbFirst, List.foldl_cons, List.foldl_nil, shiftIn]
  interval_cases i <;> simp

/-- Everything `SampleBus()` does to the state at a calm moment: a draw if the bus floats, and the check of rule R40. -/
theorem sampleBusState_calm (w : Word) (s : State) (h : s.pins.Calm) :
    ∃ tr, sampleBusState w s =
      { s with
        record := s.contentionRecord w
        draws := if s.pins.busFloats then s.draws + 1 else s.draws
        trace := tr } := by
  have hs : strobeEnds s.pins s.pins = false := by
    simp [strobeEnds, risingEdge, rises, Pins.level, h.notLow]
  have hl : cellLost s s = false := by
    simp only [cellLost, h.notLow, decide_false, Bool.and_false, Bool.or_false]
    cases hcs : s.pins.csN with
    | true => rfl
    | false => simp [h.paired hcs]
  have hser : serialReaction s.pins s.afterBus = s.afterBus := by
    have h1 : ∀ q, risingEdge q s.pins s.pins = false := by
      intro q; unfold risingEdge rises; cases s.pins.level q <;> rfl
    rw [afterBus_eq]
    simp [serialReaction, shiftReaction, latchReaction, h1, logEventIf]
  rw [sampleBusState, reactions, hser]
  rw [show commitReaction s s.afterBus = _ from if_neg (by rw [afterBus_pins, hs]; decide)]
  rw [show lostReaction s s.afterBus = _ from if_neg (by rw [afterBus_eq]; rw [Bool.not_eq_true]; exact hl)]
  rw [afterBus_eq]
  exact ⟨_, rfl⟩

end Sys2Proof.Machine
end

