-- ==== Sys2Proof/Laws/Frame.lean ====
section
/-! SUPPORT. What a sequence of primitives leaves alone and what it does to pins, registers and record in EVERY state, resting or not;
and the write strobe. -/

namespace Sys2Proof.Machine

/-! ### Reactions of the SRAM: pins, registers, record and the outside stay -/

theorem commitReaction_frame (b s : State) :
    (commitReaction b s).params = s.params ∧ (commitReaction b s).seq = s.seq ∧ (commitReaction b s).pins = s.pins ∧
    (commitReaction b s).regs = s.regs ∧ (commitReaction b s).rspValid = s.rspValid ∧ (commitReaction b s).record = s.record ∧
    (commitReaction b s).inputs = s.inputs ∧ (commitReaction b s).responses = s.responses := by
  unfold commitReaction; split <;> simp

theorem lostReaction_frame (b s : State) :
    (lostReaction b s).params = s.params ∧ (lostReaction b s).seq = s.seq ∧ (lostReaction b s).pins = s.pins ∧
    (lostReaction b s).regs = s.regs ∧ (lostReaction b s).rspValid = s.rspValid ∧ (lostReaction b s).record = s.record ∧
    (lostReaction b s).inputs = s.inputs ∧ (lostReaction b s).responses = s.responses := by
  unfold lostReaction; split <;> simp

/-- What a primitive leaves alone, and what it does to pins, registers and record (rules R11, R40, R60, R61). -/
theorem runPrim_frame (w : Word) (s : State) (p : Prim) :
    (runPrim w s p).params = s.params ∧ (runPrim w s p).seq = s.seq ∧ (runPrim w s p).pins = p.onPins s.pins ∧
    (runPrim w s p).regs = p.regsAfter s ∧ (runPrim w s p).rspValid = s.rspValid ∧
    (runPrim w s p).record =
      s.record.raiseIf ((p.onPins s.pins).contended && s.params.contentionIsFault) .busContention w ∧
    (runPrim w s p).inputs = s.inputs ∧ (runPrim w s p).responses = s.responses := by
  obtain ⟨tr, h⟩ := logChanges_eq s (p.apply s)
  rw [runPrim, reactions, h]
  generalize ht : serialReaction s.pins { p.apply s with trace := tr } = t
  obtain ⟨a1, a2, a3, a4, a5, a6, a7, a8⟩ := commitReaction_frame s t
  obtain ⟨b1, b2, b3, b4, b5, b6, b7, b8⟩ := lostReaction_frame s (commitReaction s t)
  simp only [contentionCheck_params, contentionCheck_seq, contentionCheck_pins, contentionCheck_regs, contentionCheck_rspValid,
    contentionCheck_record, contentionCheck_inputs, contentionCheck_responses, State.contentionRecord,
    a1, a2, a3, a4, a5, a6, a7, a8, b1, b2, b3, b4, b5, b6, b7, b8]
  subst ht
  exact ⟨rfl, rfl, rfl, rfl, rfl, rfl, rfl, rfl⟩

/-- The same of a sequence, in every state. -/
theorem runPrims_frame (w : Word) (ps : List Prim) (s : State) :
    (runPrims w ps s).params = s.params ∧ (runPrims w ps s).seq = s.seq ∧ (runPrims w ps s).pins = pinsAfter ps s.pins ∧
    (runPrims w ps s).regs = regsAfter ps s.pins s.regs ∧ (runPrims w ps s).rspValid = s.rspValid ∧
    (runPrims w ps s).record =
      s.record.raiseIf (contendedIn ps s.pins && s.params.contentionIsFault) .busContention w ∧
    (runPrims w ps s).inputs = s.inputs ∧ (runPrims w ps s).responses = s.responses := by
  induction ps generalizing s with
  | nil => exact ⟨rfl, rfl, rfl, rfl, rfl, rfl, rfl, rfl⟩
  | cons q qs ih =>
    obtain ⟨a1, a2, a3, a4, a5, a6, a7, a8⟩ := runPrim_frame w s q
    obtain ⟨b1, b2, b3, b4, b5, b6, b7, b8⟩ := ih (runPrim w s q)
    rw [show runPrims w (q :: qs) s = runPrims w qs (runPrim w s q) from rfl, b1, b2, b3, b4, b5, b6, b7, b8,
      a1, a2, a3, a4, a5, a6, a7, a8, FaultRecord.raiseIf_or, ← Bool.and_or_distrib_right]
    exact ⟨rfl, rfl, rfl, rfl, rfl, rfl, rfl, rfl⟩

/-! ### M keeps its canonical form, in every state -/

theorem runPrim_memWf (w : Word) (s : State) (p : Prim) (h : s.mem.wf = true) : (runPrim w s p).mem.wf = true := by
  obtain ⟨tr, hl⟩ := logChanges_eq s (p.apply s)
  rw [runPrim, reactions, hl, contentionCheck_mem]
  generalize ht : serialReaction s.pins { p.apply s with trace := tr } = t
  have h0 : t.mem.wf = true := by subst ht; exact h
  have h1 : (commitReaction s t).mem.wf = true := by
    unfold commitReaction; split
    · exact Memory.wf_write h0 _ _
    · exact h0
  unfold lostReaction; split
  · exact Memory.wf_write h1 _ _
  · exact h1

theorem runPrims_memWf (w : Word) (ps : List Prim) (s : State) (h : s.mem.wf = true) : (runPrims w ps s).mem.wf = true := by
  induction ps generalizing s with
  | nil => exact h
  | cons q qs ih => exact ih _ (runPrim_memWf w s q h)

/-! ### The last check of rule R40 -/

/-- After a sequence that is not empty, contention that holds is on top of the trace. -/
theorem runPrims_contention_logged (w : Word) (ps : List Prim) (p : Prim) (s : State)
    (h : (runPrims w (ps ++ [p]) s).pins.contended = true) : (runPrims w (ps ++ [p]) s).trace.head? = some .contention := by
  rw [runPrims_append] at h ⊢
  generalize runPrims w ps s = t at *
  change (runPrim w t p).trace.head? = _
  change (runPrim w t p).pins.contended = true at h
  rw [runPrim, reactions] at h ⊢
  rw [contentionCheck_pins] at h
  rw [contentionCheck_trace, if_pos h]
  rfl

/-! ### The write strobe -/

/-- The state after a primitive that ends a strobe, no cell lost: the bus as it was goes into M[AL] (rule R37). -/
theorem runPrim_commit (w : Word) (s : State) (p : Prim) (hc : strobeEnds s.pins (p.onPins s.pins) = true)
    (hl : cellLost s { s with pins := p.pinsAfter s, regs := p.regsAfter s } = false) :
    ∃ tr, runPrim w s p =
      { s with
        pins := p.pinsAfter s
        regs := p.regsAfter s
        mem := s.mem.write (p.regsAfter s).al s.bus
        record := s.record.raiseIf ((p.onPins s.pins).contended && s.params.contentionIsFault) .busContention w
        draws := s.afterBus.draws
        trace := tr } := by
  obtain ⟨tr, h⟩ := logChanges_eq s (p.apply s)
  rw [runPrim, reactions, h]
  rw [show ∀ t : State, t.pins = p.onPins s.pins → commitReaction s t =
      { t with mem := t.mem.write t.regs.al s.bus, draws := s.afterBus.draws, trace := .commit t.regs.al s.bus :: t.trace } from
    fun t ht => if_pos (by rw [ht]; exact hc)]
  rotate_left
  · rfl
  rw [show lostReaction s _ = _ from if_neg (by rw [Bool.not_eq_true]; exact hl)]
  exact ⟨_, rfl⟩

/-- The pin drivers around WRITE's strobe: selected, output disabled, the serial clocks low, WE_n driven to `l`. -/
def strobePins (l : Bool) (d : Dir) (ser : Bool) : Pins :=
  { csN := false, weMode := .driven, weLvl := l, oeN := true, dir := d, ser := ser, sclk := false, rclk := false }

theorem strobePins_contended (l : Bool) (d : Dir) (ser : Bool) : (strobePins l d ser).contended = false := by
  simp [strobePins, Pins.contended, Pins.sramDrives]

/-- From the strobe's pins to the strobe's pins nothing reaches the registers. -/
theorem strobePins_regs (l l' : Bool) (d : Dir) (ser : Bool) (r : Regs) :
    latchReaction (strobePins l d ser) (strobePins l' d ser) (shiftReaction (strobePins l d ser) (strobePins l' d ser) r) = r := rfl

theorem strobePins_keepsCell (s t : State) (l l' : Bool) (d : Dir) (ser : Bool) (hs : s.pins = strobePins l d ser)
    (ht : t.pins = strobePins l' d ser) (hr : t.regs = s.regs) : cellLost s t = false := by
  have h1 : risingEdge .csN (strobePins l d ser) (strobePins l' d ser) = false := rfl
  have h2 : (strobePins l' d ser).weN ≠ .z := by cases l' <;> simp [strobePins, Pins.weN, levelOf]
  simp [cellLost, hs, ht, h1, h2, State.addressPins, hr]

/-- A primitive that keeps WE_n from rising during the strobe moves the pins only. -/
theorem strobe_quiet (w : Word) (s : State) (p : Prim) (l l' : Bool) (d : Dir) (ser : Bool) (hs : s.pins = strobePins l d ser)
    (hp : p.onPins s.pins = strobePins l' d ser) (hr : p.onRegs s.regs = s.regs) (hl : l' = true → l = true) :
    ∃ tr, runPrim w s p = { s with pins := strobePins l' d ser, trace := tr } := by
  have hregs : p.regsAfter s = s.regs := by
    rw [Prim.regsAfter, hp, hr, hs, strobePins_regs]
  have hc : strobeEnds s.pins (p.onPins s.pins) = false := by
    rw [hp, hs]
    cases l <;> cases l' <;> first | rfl | exact absurd (hl rfl) (by decide)
  obtain ⟨tr, h⟩ := runPrim_quiet w s p hc (strobePins_keepsCell _ _ l l' d ser hs hp hregs)
  refine ⟨tr, h.trans ?_⟩
  rw [hregs, Prim.pinsAfter, hp, strobePins_contended]
  rfl

/-- The end of the strobe commits the byte on the bus. -/
theorem strobe_rise (w : Word) (s : State) (d : Dir) (ser : Bool) (hs : s.pins = strobePins false d ser) :
    ∃ tr, runPrim w s (.drive .weN true) =
      { s with
        pins := strobePins true d ser
        mem := s.mem.write s.regs.al (if d = .output then s.regs.dout else s.nextDraw)
        draws := if d = .output then s.draws else s.draws + 1
        trace := tr } := by
  have hp : (Prim.drive .weN true).onPins s.pins = strobePins true d ser := by rw [hs]; rfl
  have hregs : (Prim.drive .weN true).regsAfter s = s.regs := by
    rw [Prim.regsAfter, hp, hs]; exact strobePins_regs _ _ _ _ _
  have hc : strobeEnds s.pins ((Prim.drive .weN true).onPins s.pins) = true := by rw [hp, hs]; rfl
  obtain ⟨tr, h⟩ := runPrim_commit w s (.drive .weN true) hc (strobePins_keepsCell _ _ false true d ser hs hp hregs)
  refine ⟨tr, h.trans ?_⟩
  have hbus : s.bus = if d = .output then s.regs.dout else s.nextDraw := by
    rw [State.bus, hs]; cases d <;> rfl
  have hdraws : s.afterBus.draws = if d = .output then s.draws else s.draws + 1 := by
    rw [afterBus_eq, hs]; cases d <;> rfl
  rw [hregs, Prim.pinsAfter, hp, strobePins_contended, hbus, hdraws]
  rfl

/-- The strobe of WRITE while Selected with OE_n = 1: M[AL] takes the byte on the bus, DOUT if DIR = Out, and a draw if nobody drives
(rules R37, R82). -/
theorem strobe_selected (w : Word) (s : State) (hp : s.pins.Resting) (hs : s.pins.csN = false) (ho : s.pins.oeN = true) :
    ∃ tr, runPrims w strobeSeq s =
      { s with
        mem := s.mem.write s.regs.al (if s.pins.dir = .output then s.regs.dout else s.nextDraw)
        draws := if s.pins.dir = .output then s.draws else s.draws + 1
        trace := tr } := by
  have h0 : s.pins = strobePins true s.pins.dir s.pins.ser := by
    obtain ⟨hw, hl, hc, hr⟩ := hp
    have hm := hw.mpr hs
    generalize s.pins = p at *
    cases p
    simp_all [strobePins]
  obtain ⟨tr1, h1⟩ := strobe_quiet w s (.drive .weN false) true false _ _ h0 (by rw [h0]; rfl) rfl (by decide)
  obtain ⟨tr2, h2⟩ := strobe_quiet w (runPrim w s (.drive .weN false)) .settle false false s.pins.dir s.pins.ser (by rw [h1])
    (by rw [h1]; rfl) rfl (by decide)
  obtain ⟨tr3, h3⟩ := strobe_rise w (runPrim w (runPrim w s (.drive .weN false)) .settle) s.pins.dir s.pins.ser (by rw [h2])
  obtain ⟨tr4, h4⟩ := strobe_quiet w (runPrim w (runPrim w (runPrim w s (.drive .weN false)) .settle) (.drive .weN true)) .settle
    true true s.pins.dir s.pins.ser (by rw [h3]) (by rw [h3]; rfl) rfl (by decide)
  refine ⟨tr4, ?_⟩
  change runPrim w (runPrim w (runPrim w (runPrim w s (.drive .weN false)) .settle) (.drive .weN true)) .settle = _
  rw [h4, h3, h2, h1, ← h0]
  rfl

/-- While deselected the strobe is suppressed: WE_MODE = Released (rule R20). -/
theorem strobe_deselected (w : Word) (s : State) (hp : s.pins.Resting) (hs : s.pins.csN = true) :
    ∃ tr, runPrims w strobeSeq s = { s with trace := tr } := by
  have hm : s.pins.weMode = .released := by
    cases h : s.pins.weMode with
    | driven => rw [hp.wePaired.mp h] at hs; cases hs
    | released => rfl
  have hstay (v : Bool) : (Prim.drive .weN v).onPins s.pins = s.pins := by simp [Prim.onPins, hm]
  have hset : Prim.settle.onPins s.pins = s.pins := rfl
  have hcalm : CalmIn strobeSeq s.pins := by
    simp only [strobeSeq, CalmIn, hstay, hset, hp.calm, and_self]
  obtain ⟨tr, h⟩ := runPrims_calm w strobeSeq s hcalm
  refine ⟨tr, ?_⟩
  have hpins : pinsAfter strobeSeq s.pins = s.pins := by
    simp only [strobeSeq, pinsAfter, List.foldl_cons, List.foldl_nil, hstay, hset]
  have hedge (q : Pin) : risingEdge q s.pins s.pins = false := by
    unfold risingEdge rises; cases s.pins.level q <;> rfl
  have hregs : regsAfter strobeSeq s.pins s.regs = s.regs := by
    simp [strobeSeq, regsAfter, hstay, hset, Prim.onRegs, shiftReaction, latchReaction, hedge]
  have hcont : contendedIn strobeSeq s.pins = false := by
    simp [strobeSeq, contendedIn, hstay, hset, Pins.contended, Pins.sramDrives, hs]
  rw [h, hpins, hregs, hcont]
  rfl

end Sys2Proof.Machine
end

