-- ==== Sys2Proof/Laws/Trace.lean ====
section
/-! SUPPORT. What a primitive adds to the trace, as each view of the trace sees it: settles, levels of one pin, commits, addresses.
These hold in every state, resting or not. -/

namespace Sys2Proof.Machine

/-- A view of a trace: what `f` keeps of each event, oldest first. The views of Safety.lean are its cases. -/
def view {α : Type} (f : Event → Option α) (tr : List Event) : List α := tr.reverse.filterMap f

theorem view_cons {α : Type} (f : Event → Option α) (e : Event) (tr : List Event) :
    view f (e :: tr) = view f tr ++ (f e).toList := by
  simp only [view, List.reverse_cons, List.filterMap_append, List.filterMap_cons, List.filterMap_nil]
  cases f e <;> rfl

theorem view_ite {α : Type} (f : Event → Option α) (c : Bool) (e : Event) (tr : List Event) :
    view f (if c then e :: tr else tr) = view f tr ++ if c then (f e).toList else [] := by
  cases c
  · simp
  · exact view_cons f e tr

/-- The state a primitive leaves before any reaction, its trace entries made. -/
def Prim.logged (p : Prim) (s : State) : State := logChanges s (p.apply s)

theorem logged_pins (p : Prim) (s : State) : (p.logged s).pins = p.onPins s.pins := by
  obtain ⟨tr, h⟩ := logChanges_eq s (p.apply s); rw [Prim.logged, h]; rfl

theorem logged_regs (p : Prim) (s : State) : (p.logged s).regs = p.onRegs s.regs := by
  obtain ⟨tr, h⟩ := logChanges_eq s (p.apply s); rw [Prim.logged, h]; rfl

theorem view_logPin {α : Type} (f : Event → Option α) (b s : State) (q : Pin) :
    view f (logPin b s q).trace =
      view f s.trace ++ if b.pins.level q ≠ s.pins.level q then (f (.pin q (s.pins.level q))).toList else [] := by
  rw [logPin, logEventIf_trace, view_ite]
  simp

theorem logPin_pins (b s : State) (q : Pin) : (logPin b s q).pins = s.pins := rfl

theorem view_logPins {α : Type} (f : Event → Option α) (b : State) (qs : List Pin) (s : State) :
    view f (qs.foldl (logPin b) s).trace =
      view f s.trace ++ qs.flatMap fun q =>
        if b.pins.level q ≠ s.pins.level q then (f (.pin q (s.pins.level q))).toList else [] := by
  induction qs generalizing s with
  | nil => simp
  | cons q qs ih => rw [List.foldl_cons, ih, view_logPin, logPin_pins, List.flatMap_cons, List.append_assoc]

/-- What a primitive adds to a view that sees neither CONTENTION nor lost cells: its settle, its pin, the controller's data, the address
pins, the commit. -/
theorem view_runPrim {α : Type} (f : Event → Option α) (hc : f .contention = none) (hl : ∀ a b, f (.lost a b) = none)
    (w : Word) (s : State) (p : Prim) :
    view f (runPrim w s p).trace =
      view f s.trace
        ++ (if p = .settle then (f .settle).toList else [])
        ++ ([Pin.ser, .sclk, .rclk, .oeN, .csN, .weN].flatMap fun q =>
            if s.pins.level q ≠ (p.onPins s.pins).level q then (f (.pin q ((p.onPins s.pins).level q))).toList else [])
        ++ (if s.controllerData ≠ (p.apply s).controllerData then (f (.data (p.apply s).controllerData)).toList else [])
        ++ (if (p.regsAfter s).al ≠ (p.onRegs s.regs).al then (f (.address (p.regsAfter s).al)).toList else [])
        ++ (if strobeEnds s.pins (p.onPins s.pins) then (f (.commit (p.regsAfter s).al s.bus)).toList else []) := by
  have hcheck : ∀ t : State, view f (contentionCheck w t).trace = view f t.trace := by
    intro t; rw [contentionCheck_trace, view_ite, hc]; simp
  have hlost : ∀ t : State, view f (lostReaction s t).trace = view f t.trace := by
    intro t; unfold lostReaction; split
    · rw [view_cons, hl]; simp
    · rfl
  have hcommit : ∀ t : State, view f (commitReaction s t).trace =
      view f t.trace ++ if strobeEnds s.pins t.pins then (f (.commit t.regs.al s.bus)).toList else [] := by
    intro t; unfold commitReaction; split
    · rw [view_cons]
    · simp
  have hserial : ∀ t : State, view f (serialReaction s.pins t).trace =
      view f t.trace ++ if (latchReaction s.pins t.pins (shiftReaction s.pins t.pins t.regs)).al ≠ t.regs.al then
        (f (.address (latchReaction s.pins t.pins (shiftReaction s.pins t.pins t.regs)).al)).toList else [] := by
    intro t; rw [serialReaction, logEventIf_trace, view_ite]; simp
  have hpins : ∀ t : State, (serialReaction s.pins t).pins = t.pins := fun _ => rfl
  have hregs : ∀ t : State, (serialReaction s.pins t).regs = latchReaction s.pins t.pins (shiftReaction s.pins t.pins t.regs) :=
    fun _ => rfl
  have hlogged : view f (p.logged s).trace = view f s.trace
        ++ (if p = .settle then (f .settle).toList else [])
        ++ ([Pin.ser, .sclk, .rclk, .oeN, .csN, .weN].flatMap fun q =>
            if s.pins.level q ≠ (p.onPins s.pins).level q then (f (.pin q ((p.onPins s.pins).level q))).toList else [])
        ++ (if s.controllerData ≠ (p.apply s).controllerData then (f (.data (p.apply s).controllerData)).toList else []) := by
    rw [Prim.logged, logChanges, logEventIf_trace, view_ite, view_logPins, primApply_trace, view_ite]
    simp only [primApply_pins, decide_eq_true_eq]
    congr!
  rw [runPrim, reactions, hcheck, hlost, hcommit, hserial, hpins, hregs]
  rw [show logChanges s (p.apply s) = p.logged s from rfl, logged_pins, logged_regs, hlogged]

/-! ### The views of Safety.lean -/

theorem pinHistory_runPrim (w : Word) (s : State) (p : Prim) (q : Pin) :
    pinHistory q (runPrim w s p).trace =
      pinHistory q s.trace ++ if s.pins.level q ≠ (p.onPins s.pins).level q then [(p.onPins s.pins).level q] else [] := by
  have h := view_runPrim (Event.levelOfPin q) rfl (fun _ _ => rfl) w s p
  refine h.trans ?_
  cases q <;> simp [Event.levelOfPin, pinHistory, view]

theorem commits_runPrim (w : Word) (s : State) (p : Prim) :
    commits (runPrim w s p).trace =
      commits s.trace ++ if strobeEnds s.pins (p.onPins s.pins) then [((p.regsAfter s).al, s.bus)] else [] := by
  have h := view_runPrim Event.commitOf rfl (fun _ _ => rfl) w s p
  refine h.trans ?_
  simp [Event.commitOf, commits, view]

theorem addressHistory_runPrim (w : Word) (s : State) (p : Prim) :
    addressHistory (runPrim w s p).trace =
      addressHistory s.trace ++ if (p.regsAfter s).al ≠ s.regs.al then [(p.regsAfter s).al] else [] := by
  have h := view_runPrim Event.addressOf rfl (fun _ _ => rfl) w s p
  refine h.trans ?_
  have : (p.onRegs s.regs).al = s.regs.al := by cases p <;> rfl
  rw [this]
  simp [Event.addressOf, addressHistory, view]

/-- One event as a settle. -/
def settleOf : Event → Option Unit
  | .settle => some ()
  | _ => none

theorem settleCount_eq_view (tr : List Event) : settleCount tr = (view settleOf tr).length := by
  induction tr with
  | nil => rfl
  | cons e tr ih =>
    rw [view_cons, List.length_append, ← ih, settleCount, List.countP_cons]
    cases e <;> rfl

theorem settleCount_runPrim (w : Word) (s : State) (p : Prim) :
    settleCount (runPrim w s p).trace = settleCount s.trace + if p = .settle then 1 else 0 := by
  rw [settleCount_eq_view, settleCount_eq_view, view_runPrim settleOf rfl (fun _ _ => rfl) w s p]
  by_cases hp : p = .settle <;> simp [settleOf, hp]

/-- A sequence takes as many settles as it lists (rule R106). -/
theorem settleCount_runPrims (w : Word) (ps : List Prim) (s : State) :
    settleCount (runPrims w ps s).trace = settleCount s.trace + ps.count .settle := by
  induction ps generalizing s with
  | nil => rfl
  | cons p ps ih =>
    rw [show runPrims w (p :: ps) s = runPrims w ps (runPrim w s p) from rfl, ih, settleCount_runPrim, List.count_cons]
    by_cases hp : p = .settle <;> simp [hp]; omega

/-- One event as an entry of the wires. -/
def wireOf (e : Event) : Option Event := if e.onWires then some e else none

theorem wires_eq_view (tr : List Event) : wires tr = (view wireOf tr).reverse := by
  induction tr with
  | nil => rfl
  | cons e tr ih =>
    rw [view_cons, List.reverse_append, ← ih, wires, List.filter_cons]
    cases h : e.onWires <;> simp [wireOf, h, wires]

/-- What a primitive adds to the wires, newest first. -/
theorem wires_runPrim (w : Word) (s : State) (p : Prim) :
    wires (runPrim w s p).trace =
      (if strobeEnds s.pins (p.onPins s.pins) then [.commit (p.regsAfter s).al s.bus] else [])
        ++ (if (p.regsAfter s).al ≠ (p.onRegs s.regs).al then [.address (p.regsAfter s).al] else [])
        ++ (if s.controllerData ≠ (p.apply s).controllerData then [.data (p.apply s).controllerData] else [])
        ++ ([Pin.ser, .sclk, .rclk, .oeN, .csN, .weN].flatMap fun q =>
            if s.pins.level q ≠ (p.onPins s.pins).level q then [Event.pin q ((p.onPins s.pins).level q)] else []).reverse
        ++ (if p = .settle then [.settle] else [])
        ++ wires s.trace := by
  have hc : ∀ (c : Prop) [Decidable c] (e : Event), (if c then [e] else []).reverse = if c then [e] else [] := by
    intro c _ e; split <;> rfl
  rw [wires_eq_view, view_runPrim wireOf rfl (fun _ _ => rfl) w s p, wires_eq_view]
  simp only [List.reverse_append, List.append_assoc, wireOf, Event.onWires, if_true, Option.toList_some, hc]

end Sys2Proof.Machine
end

