-- ==== Sys2Proof/Laws/Commands.lean ====
section
/-! SUPPORT. What the sequences of READ, WRITE and SAMPLE do, said once from pins that rest; what SampleBus leaves alone in every
state; the steps of the machine by their input; which commits and lost cells the sequences put on the trace. -/

namespace Sys2Proof.Machine

/-! ### Pins that rest -/

/-- Pins that rest have one of two forms: selected, or deselected (rule R27). -/
theorem Pins.Resting.cases {p : Pins} (h : p.Resting) :
    p = { csN := false, weMode := .driven, weLvl := true, oeN := p.oeN, dir := p.dir, ser := p.ser, sclk := false, rclk := false } ∨
    p = { csN := true, weMode := .released, weLvl := true, oeN := p.oeN, dir := p.dir, ser := p.ser, sclk := false, rclk := false } := by
  obtain ⟨h1, h2, h3, h4⟩ := h
  rcases p with ⟨cs, m, l, o, d, se, sc, rc⟩
  cases m <;> cases cs <;> simp_all

/-- A moment and itself make no edge (rule R12). -/
@[simp] theorem risingEdge_self (p : Pins) (q : Pin) : risingEdge q p p = false := by
  unfold risingEdge rises; cases p.level q <;> rfl

/-- Where the serial clocks stay, the shift register and the latch stay (rules R60, R61). -/
theorem serialRegs_hold (p q : Pins) (r : Regs) (h1 : q.sclk = p.sclk) (h2 : q.rclk = p.rclk) :
    latchReaction p q (shiftReaction p q r) = r := by
  rcases p with ⟨_, _, _, _, _, _, a, b⟩
  rcases q with ⟨_, _, _, _, _, _, c, d⟩
  simp only at h1 h2
  subst h1 h2
  cases c <;> cases d <;> simp [latchReaction, shiftReaction, risingEdge, rises, Pins.level, levelOf]

/-- With DIR = In nothing contends (rule R40). -/
theorem Pins.contended_input {p : Pins} (h : p.dir = .input) : p.contended = false := by
  simp [Pins.contended, Pins.controllerDrives, h]

/-- Without its trace, a calm sequence is its pins, its registers and its record. -/
theorem runPrims_calm_noTrace (w : Word) (ps : List Prim) (s : State) (h : CalmIn ps s.pins) :
    (runPrims w ps s).noTrace =
      ({ s with
        pins := pinsAfter ps s.pins
        regs := regsAfter ps s.pins s.regs
        record := s.recordAfter (contendedIn ps s.pins) w } : State).noTrace := by
  obtain ⟨tr, ht⟩ := runPrims_calm w ps s h
  rw [ht]; rfl

/-! ### The sequences of the commands -/

/-- `Settle()` at a calm moment: the check of rule R40 and nothing else. -/
theorem settle_spec (w : Word) (s : State) (h : s.pins.Calm) :
    ∃ tr, runPrims w [.settle] s = { s with record := s.contentionRecord w, trace := tr } := by
  obtain ⟨tr, ht⟩ := runPrims_calm w [.settle] s ⟨h, h⟩
  have hr : regsAfter [.settle] s.pins s.regs = s.regs := by simp [regsAfter, Prim.onPins, Prim.onRegs, serialRegs_hold]
  exact ⟨tr, by rw [ht, hr]; simp [State.contentionRecord, contendedIn, Prim.onPins, pinsAfter]⟩

/-- READ's sequence up to the sample (rule R81). -/
theorem readSeq_spec (w : Word) (a : Addr) (s : State) (h : s.pins.Resting) :
    ∃ tr, runPrims w (readSeq a) s =
      { s with
        pins := { s.pins with ser := a.getLsbD 0, oeN := false }
        regs := { s.regs with sr := a, al := a }
        record := s.recordAfter (decide (s.pins.dir = .output) && s.pins.selected) w
        trace := tr } := by
  obtain ⟨tr, ht⟩ := setAddress_spec w a true s h.sclkLow h.calm
  rw [readSeq, runPrims_append, ht]
  have e : ({ s.pins with ser := a.getLsbD 0, rclk := false, oeN := !true } : Pins) =
      { s.pins with ser := a.getLsbD 0, oeN := false } := by simp [h.rclkLow]
  rw [e]
  have hc : ({ s.pins with ser := a.getLsbD 0, oeN := false } : Pins).Calm := ⟨h.calm.1, h.calm.2⟩
  obtain ⟨tr2, h2⟩ := settle_spec w
    { s with
      pins := { s.pins with ser := a.getLsbD 0, oeN := false }
      regs := { s.regs with sr := a, al := a }
      record := s.record.raiseIf
        ((s.pins.contended || ({ s.pins with oeN := !true } : Pins).contended) && s.params.contentionIsFault) .busContention w
      trace := tr } hc
  refine ⟨tr2, ?_⟩
  rw [h2]
  simp only [State.contentionRecord, State.recordAfter, FaultRecord.raiseIf_or]
  congr 2
  rcases h.cases with hp | hp <;> rw [hp] <;> cases s.pins.oeN <;> cases s.pins.dir <;> cases s.params.contentionIsFault <;> rfl

/-- `DriveData(b); Settle()` at a calm moment without contention (rules R11, R19). -/
theorem driveData_spec (w : Word) (d : Byte) (s : State) (h : s.pins.Calm) (hc : s.pins.contended = false) :
    ∃ tr, runPrims w [.driveData d, .settle] s = { s with regs := { s.regs with dout := d }, trace := tr } := by
  obtain ⟨tr, ht⟩ := runPrims_calm w [.driveData d, .settle] s ⟨h, h, h⟩
  refine ⟨tr, ?_⟩
  rw [ht]
  simp [regsAfter, Prim.onPins, Prim.onRegs, serialRegs_hold, pinsAfter, contendedIn, hc]

/-- WRITE's sequence up to the strobe (rule R82). -/
theorem writeAddressData_spec (w : Word) (a : Addr) (d : Byte) (s : State) (h : s.pins.Resting) :
    ∃ tr, runPrims w (setAddress a false ++ [.driveData d, .settle]) s =
      { s with
        pins := { s.pins with ser := a.getLsbD 0, oeN := true }
        regs := { s.regs with sr := a, al := a, dout := d }
        record := s.recordAfter s.pins.contended w
        trace := tr } := by
  obtain ⟨tr, ht⟩ := setAddress_spec w a false s h.sclkLow h.calm
  rw [runPrims_append, ht]
  have e : ({ s.pins with ser := a.getLsbD 0, rclk := false, oeN := !false } : Pins) =
      { s.pins with ser := a.getLsbD 0, oeN := true } := by simp [h.rclkLow]
  rw [e]
  have hc : ({ s.pins with ser := a.getLsbD 0, oeN := true } : Pins).Calm := ⟨h.calm.1, h.calm.2⟩
  obtain ⟨tr2, h2⟩ := driveData_spec w d
    { s with
      pins := { s.pins with ser := a.getLsbD 0, oeN := true }
      regs := { s.regs with sr := a, al := a }
      record := s.record.raiseIf
        ((s.pins.contended || ({ s.pins with oeN := !false } : Pins).contended) && s.params.contentionIsFault) .busContention w
      trace := tr } hc (by simp [Pins.contended, Pins.sramDrives])
  refine ⟨tr2, ?_⟩
  rw [h2]
  simp [State.recordAfter, Pins.contended, Pins.sramDrives]

/-- WRITE as its fault checks, its address and data, and its strobe (rule R82). -/
theorem execWrite_eq (a : Addr) (d : Byte) (s : State) :
    execWrite a d s =
      .next (runPrims (encode (.write a d)) strobeSeq
        (runPrims (encode (.write a d)) (setAddress a false ++ [.driveData d, .settle])
          (raiseFaultIf (decide (s.pins.dir = .input)) .directionMismatch (encode (.write a d))
            (raiseFaultIf (!s.pins.selected) .notSelected (encode (.write a d)) s)))) := by
  have : (!s.pins.controllerDrives) = decide (s.pins.dir = .input) := by
    cases h : s.pins.dir <;> simp [Pins.controllerDrives, h]
  rw [← runPrims_append]
  simp only [execWrite, writeSeq, this]

/-- What `SampleBus()` leaves alone and what it records, in every state. -/
theorem sampleBusState_frame (w : Word) (s : State) :
    (sampleBusState w s).params = s.params ∧ (sampleBusState w s).seq = s.seq ∧ (sampleBusState w s).pins = s.pins ∧
    (sampleBusState w s).regs = s.regs ∧ (sampleBusState w s).rspValid = s.rspValid ∧
    (sampleBusState w s).record = s.contentionRecord w ∧ (sampleBusState w s).inputs = s.inputs ∧
    (sampleBusState w s).responses = s.responses := by
  have hser : serialReaction s.pins s.afterBus = s.afterBus := by
    rw [afterBus_eq]
    simp [serialReaction, shiftReaction, latchReaction, logEventIf]
  have hu : sampleBusState w s = contentionCheck w (lostReaction s (commitReaction s s.afterBus)) := by
    simp only [sampleBusState, reactions, hser]
  obtain ⟨a1, a2, a3, a4, a5, a6, a7, a8⟩ := commitReaction_frame s s.afterBus
  obtain ⟨b1, b2, b3, b4, b5, b6, b7, b8⟩ := lostReaction_frame s (commitReaction s s.afterBus)
  have hb := afterBus_eq s
  rw [hu]
  simp only [contentionCheck_params, contentionCheck_seq, contentionCheck_pins, contentionCheck_regs, contentionCheck_rspValid,
    contentionCheck_record, contentionCheck_inputs, contentionCheck_responses, State.contentionRecord,
    a1, a2, a3, a4, a5, a6, a7, a8, b1, b2, b3, b4, b5, b6, b7, b8]
  rw [hb]
  exact ⟨rfl, rfl, rfl, rfl, rfl, rfl, rfl, rfl⟩

/-! ### A step by its input -/

/-- Everything a step can do (rules R46, R56, R79, R97, R98). -/
theorem step_cases {s t : State} (h : step s = .next t) :
    (∃ d rest, s.inputs = .reset d :: rest ∧ t = resetEvent d { s with inputs := rest }) ∨
    (s.seq = .idle ∧
      ((s.inputs = [] ∧ t = waitForHost s) ∨
       (∃ a v rest, s.inputs = .extWrite a v :: rest ∧ t = extWrite a v { s with inputs := rest }) ∨
       (∃ w rest why, s.inputs = .command w :: rest ∧ decode w = .illegal why ∧
         t = { s with inputs := rest, rspValid := false, record := s.record.raise .illegalCommand w }) ∨
       (∃ w rest i u, s.inputs = .command w :: rest ∧ decode w = .instr i ∧ exec i (accept rest s) = .next u ∧
         t = { u with seq := .idle }))) := by
  have inj {x y : State} (h : (Host.Outcome.next x : Host.Outcome State Fault Refusal) = .next y) : x = y := by injection h
  unfold step at h
  split at h
  · exact .inl ⟨_, _, ‹_›, (inj h).symm⟩
  · rename_i w rest hi hs
    refine .inr ⟨hs, .inr (.inr ?_)⟩
    unfold runWord at h
    cases hd : decode w with
    | instr i =>
      simp only [hd] at h
      cases hx : exec i (accept rest s) with
      | next u => rw [hx] at h; exact .inr ⟨w, rest, i, u, hi, hd, hx, (inj h).symm⟩
      | fault r => rw [hx] at h; cases h
      | refused r => rw [hx] at h; cases h
    | illegal why =>
      simp only [hd] at h
      refine .inl ⟨w, rest, why, hi, hd, ?_⟩
      rw [← inj h]
      cases s
      simp only at hs
      subst hs
      rfl
  · exact .inr ⟨‹_›, .inr (.inl ⟨_, _, _, ‹_›, (inj h).symm⟩)⟩
  · exact .inr ⟨‹_›, .inl ⟨‹_›, (inj h).symm⟩⟩
  · cases h

/-- `k + 1` steps are one step and then `k`. -/
theorem runSteps_succ {n : Nat} {s u : State} : runSteps (n + 1) s = .next u ↔ ∃ t, step s = .next t ∧ runSteps n t = .next u := by
  rw [runSteps]
  cases h : step s with
  | next t => simp
  | fault r => simp
  | refused r => simp

/-- Steps after steps. -/
theorem runSteps_add {m n : Nat} {s u : State} (h : runSteps m s = .next u) : runSteps (m + n) s = runSteps n u := by
  induction m generalizing s with
  | zero => injection h with h; rw [Nat.zero_add, h]
  | succ m ih =>
    obtain ⟨t, h1, h2⟩ := runSteps_succ.mp h
    rw [Nat.succ_add, runSteps, h1]
    exact ih h2

/-! ### Commits and lost cells on the trace -/

/-- At a primitive between two calm moments there is no commit. -/
theorem commits_runPrims_calm (w : Word) (ps : List Prim) :
    ∀ s : State, CalmIn ps s.pins → commits (runPrims w ps s).trace = commits s.trace := by
  induction ps with
  | nil => exact fun _ _ => rfl
  | cons p ps ih =>
    intro s h
    change commits (runPrims w ps (runPrim w s p)).trace = _
    rw [ih _ (by rw [(runPrim_frame w s p).2.2.1]; exact h.2), commits_runPrim]
    have : strobeEnds s.pins (p.onPins s.pins) = false := by
      simp [strobeEnds, risingEdge, rises, Pins.level, h.1.notLow, h.2.head.notLow]
    simp [this]

/-- The lost cells of a trace, newest first. -/
def lostEvents (tr : List Event) : List Event :=
  tr.filter fun e =>
    match e with
    | .lost _ _ => true
    | _ => false

theorem lostEvents_ite (c : Bool) (e : Event) (tr : List Event) (h : lostEvents [e] = []) :
    lostEvents (if c then e :: tr else tr) = lostEvents tr := by
  cases c
  · rfl
  · rw [if_pos rfl, show e :: tr = [e] ++ tr from rfl, lostEvents, List.filter_append]
    exact (congrArg (· ++ _) h).trans (List.nil_append _)

theorem lostEvents_logged (p : Prim) (s : State) : lostEvents (logChanges s (p.apply s)).trace = lostEvents s.trace := by
  have hpins (b : State) (qs : List Pin) : ∀ s, lostEvents (qs.foldl (logPin b) s).trace = lostEvents s.trace := by
    induction qs with
    | nil => exact fun _ => rfl
    | cons q qs ih => intro s; rw [List.foldl_cons, ih, logPin, logEventIf_trace, lostEvents_ite _ _ _ rfl]
  rw [logChanges, logEventIf_trace, lostEvents_ite _ _ _ rfl, hpins, primApply_trace, lostEvents_ite _ _ _ rfl]

/-- A primitive at which no condition of rule R38 holds loses no cell. -/
theorem lostEvents_runPrim (w : Word) (s : State) (p : Prim)
    (hl : cellLost s { s with pins := p.pinsAfter s, regs := p.regsAfter s } = false) :
    lostEvents (runPrim w s p).trace = lostEvents s.trace := by
  have hL := lostEvents_logged p s
  have hp := logged_pins p s
  have hr := logged_regs p s
  rw [Prim.logged] at hp hr
  rw [runPrim, reactions]
  generalize logChanges s (p.apply s) = u at *
  rw [contentionCheck_trace, lostEvents_ite _ _ _ rfl]
  have hser : lostEvents (serialReaction s.pins u).trace = lostEvents s.trace := by
    rw [serialReaction, logEventIf_trace, lostEvents_ite _ _ _ rfl]; exact hL
  have hsp : (serialReaction s.pins u).pins = p.onPins s.pins := hp
  have hsr : (serialReaction s.pins u).regs = p.regsAfter s := by
    change latchReaction s.pins u.pins (shiftReaction s.pins u.pins u.regs) = _
    rw [hp, hr]
  generalize serialReaction s.pins u = v at *
  have hcm : lostEvents (commitReaction s v).trace = lostEvents v.trace := by
    unfold commitReaction; split <;> simp [lostEvents]
  obtain ⟨-, -, hcp, hcr, -⟩ := commitReaction_frame s v
  generalize commitReaction s v = x at *
  have hx : cellLost s x = false := by
    rw [← hl]; unfold cellLost State.addressPins; rw [hcp, hcr, hsp, hsr]
  unfold lostReaction
  rw [if_neg (by simp [hx]), hcm, hser]

theorem lostEvents_runPrims_calm (w : Word) (ps : List Prim) :
    ∀ s : State, CalmIn ps s.pins → lostEvents (runPrims w ps s).trace = lostEvents s.trace := by
  induction ps with
  | nil => exact fun _ _ => rfl
  | cons p ps ih =>
    intro s h
    change lostEvents (runPrims w ps (runPrim w s p)).trace = _
    rw [ih _ (by rw [(runPrim_frame w s p).2.2.1]; exact h.2)]
    refine lostEvents_runPrim w s p ?_
    have h1 := h.2.head
    simp only [cellLost, h1.notLow, decide_false, Bool.and_false, Bool.or_false]
    cases hcs : (p.onPins s.pins).csN with
    | true => rfl
    | false => simp [h1.paired hcs]

theorem sampleBus_trace (w : Word) (s : State) (h : s.pins.Calm) :
    commits (sampleBusState w s).trace = commits s.trace ∧ lostEvents (sampleBusState w s).trace = lostEvents s.trace := by
  have hl : cellLost s s.afterBus = false := by
    simp only [cellLost, afterBus_pins, h.notLow, decide_false, Bool.and_false, Bool.or_false]
    cases hcs : s.pins.csN with
    | true => rfl
    | false => simp [h.paired hcs]
  have hs : strobeEnds s.pins s.pins = false := by simp [strobeEnds]
  have hser : serialReaction s.pins s.afterBus = s.afterBus := by
    rw [afterBus_eq]
    simp [serialReaction, shiftReaction, latchReaction, logEventIf]
  rw [sampleBusState, reactions, hser]
  rw [show commitReaction s s.afterBus = _ from if_neg (by rw [afterBus_pins, hs]; decide)]
  rw [show lostReaction s s.afterBus = _ from if_neg (by rw [hl]; decide)]
  rw [contentionCheck_trace, lostEvents_ite _ _ _ rfl, afterBus_trace]
  refine ⟨?_, rfl⟩
  split
  · exact (view_cons Event.commitOf .contention s.trace).trans (List.append_nil _)
  · rfl

/-- The four primitives of the strobe, one after the other. -/
theorem runPrims_strobeSeq (w : Word) (s : State) :
    runPrims w strobeSeq s =
      runPrim w (runPrim w (runPrim w (runPrim w s (.drive .weN false)) .settle) (.drive .weN true)) .settle := rfl

/-- The strobe's trace while Selected with OE_n = 1: one commit, WE_n low and high, no cell lost, RCLK and SCLK at rest
(rules R37, R38, R82). -/
theorem strobe_selected_trace (w : Word) (s : State) (hp : s.pins.Resting) (hs : s.pins.csN = false) (ho : s.pins.oeN = true) :
    lostEvents (runPrims w strobeSeq s).trace = lostEvents s.trace ∧
    commits (runPrims w strobeSeq s).trace =
      commits s.trace ++ [(s.regs.al, if s.pins.dir = .output then s.regs.dout else s.nextDraw)] ∧
    ∀ q : Pin, pinHistory q (runPrims w strobeSeq s).trace =
      pinHistory q s.trace ++ if q = .weN then [.low, .high] else [] := by
  obtain ⟨d, se, h0⟩ : ∃ d se, s.pins = strobePins true d se := by
    rcases hp.cases with h | h
    · exact ⟨s.pins.dir, s.pins.ser, by rw [h, ho]; rfl⟩
    · rw [h] at hs; cases hs
  have hd : s.pins.dir = d := by rw [h0]; rfl
  rw [runPrims_strobeSeq, hd]
  have regs (l l' : Bool) (r : Regs) :
      latchReaction (strobePins l d se) (strobePins l' d se) (shiftReaction (strobePins l d se) (strobePins l' d se) r) = r :=
    strobePins_regs l l' d se r
  -- the moments of the strobe
  obtain ⟨tr1, q1⟩ := strobe_quiet w s (.drive .weN false) true false d se h0 (by rw [h0]; rfl) rfl (by decide)
  have l1 : lostEvents (runPrim w s (.drive .weN false)).trace = lostEvents s.trace :=
    lostEvents_runPrim w s _ (strobePins_keepsCell _ _ true false d se h0
      (by change (Prim.drive .weN false).onPins s.pins = _; rw [h0]; rfl)
      (by change Prim.regsAfter _ _ = _; rw [Prim.regsAfter, h0]; exact regs true false _))
  have c1 := commits_runPrim w s (.drive .weN false)
  have w1 := pinHistory_runPrim w s (.drive .weN false)
  have e1 : (Prim.drive .weN false).onPins s.pins = strobePins false d se := by rw [h0]; rfl
  have p1 : (runPrim w s (.drive .weN false)).pins = strobePins false d se := by rw [q1]
  have r1 : (runPrim w s (.drive .weN false)).regs = s.regs := by rw [q1]
  have n1 : (runPrim w s (.drive .weN false)).nextDraw = s.nextDraw := by rw [q1]; rfl
  generalize runPrim w s (.drive .weN false) = s1 at *
  have e2 : Prim.settle.onPins s1.pins = s1.pins := rfl
  obtain ⟨tr2, q2⟩ := strobe_quiet w s1 .settle false false d se p1 (by rw [e2, p1]) rfl (by decide)
  have l2 : lostEvents (runPrim w s1 .settle).trace = lostEvents s1.trace :=
    lostEvents_runPrim w s1 _ (strobePins_keepsCell _ _ false false d se p1 p1
      (by change Prim.regsAfter _ _ = _; rw [Prim.regsAfter, e2, p1]; exact regs false false _))
  have c2 := commits_runPrim w s1 .settle
  have w2 := pinHistory_runPrim w s1 .settle
  have p2 : (runPrim w s1 .settle).pins = strobePins false d se := by rw [q2]
  have r2 : (runPrim w s1 .settle).regs = s.regs := by rw [q2]; exact r1
  have n2 : (runPrim w s1 .settle).nextDraw = s.nextDraw := by rw [q2]; exact n1
  generalize runPrim w s1 .settle = s2 at *
  have e3 : (Prim.drive .weN true).onPins s2.pins = strobePins true d se := by rw [p2]; rfl
  have l3 : lostEvents (runPrim w s2 (.drive .weN true)).trace = lostEvents s2.trace :=
    lostEvents_runPrim w s2 _ (strobePins_keepsCell _ _ false true d se p2 e3
      (by change Prim.regsAfter _ _ = _; rw [Prim.regsAfter, e3, p2]; exact regs false true _))
  have c3 := commits_runPrim w s2 (.drive .weN true)
  have w3 := pinHistory_runPrim w s2 (.drive .weN true)
  have r3 : (Prim.drive .weN true).regsAfter s2 = s2.regs := by rw [Prim.regsAfter, e3, p2]; exact regs false true _
  have p3 := (runPrim_frame w s2 (.drive .weN true)).2.2.1.trans e3
  generalize runPrim w s2 (.drive .weN true) = s3 at *
  have e4 : Prim.settle.onPins s3.pins = s3.pins := rfl
  have l4 : lostEvents (runPrim w s3 .settle).trace = lostEvents s3.trace :=
    lostEvents_runPrim w s3 _ (strobePins_keepsCell _ _ true true d se p3 p3
      (by change Prim.regsAfter _ _ = _; rw [Prim.regsAfter, e4, p3]; exact regs true true _))
  have c4 := commits_runPrim w s3 .settle
  have w4 := pinHistory_runPrim w s3 .settle
  refine ⟨by rw [l4, l3, l2, l1], ?_, fun q => ?_⟩
  · have hbus : s2.bus = if d = .output then s.regs.dout else s.nextDraw := by
      rw [State.bus, p2, r2, n2]; cases d <;> rfl
    have k0 : ∀ l : Bool, strobeEnds (strobePins l d se) (strobePins l d se) = false := by simp [strobeEnds]
    have k1 : strobeEnds (strobePins true d se) (strobePins false d se) = false := rfl
    have k3 : strobeEnds (strobePins false d se) (strobePins true d se) = true := rfl
    rw [c4, c3, c2, c1, e4, p3, k0, e3, p2, k3, e2, p1, k0, e1, h0, k1, r3, r2, hbus]
    simp
  · rw [w4, w3, w2, w1, e4, p3, e3, p2, e2, p1, e1, h0]
    cases q <;> cases se <;> simp [Pins.level, strobePins, Pins.weN, levelOf]

/-- The strobe's trace while deselected: no commit, no edge, no cell lost (rule R20). -/
theorem strobe_deselected_trace (w : Word) (s : State) (hp : s.pins.Resting) (hs : s.pins.csN = true) :
    lostEvents (runPrims w strobeSeq s).trace = lostEvents s.trace ∧ commits (runPrims w strobeSeq s).trace = commits s.trace ∧
    ∀ q : Pin, pinHistory q (runPrims w strobeSeq s).trace = pinHistory q s.trace := by
  have hm : s.pins.weMode = .released := by
    rcases hp.cases with h | h
    · rw [h] at hs; cases hs
    · rw [h]
  have hstay (v : Bool) : (Prim.drive .weN v).onPins s.pins = s.pins := by simp [Prim.onPins, hm]
  have hcalm : CalmIn strobeSeq s.pins := by
    have hset : Prim.settle.onPins s.pins = s.pins := rfl
    simp only [strobeSeq, CalmIn, hstay, hset, hp.calm, and_self]
  refine ⟨lostEvents_runPrims_calm w strobeSeq s hcalm, commits_runPrims_calm w strobeSeq s hcalm, fun q => ?_⟩
  rw [runPrims_strobeSeq]
  have p1 := (runPrim_frame w s (.drive .weN false)).2.2.1.trans (hstay false)
  have w1 := pinHistory_runPrim w s (.drive .weN false) q
  rw [hstay false] at w1
  generalize runPrim w s (.drive .weN false) = s1 at *
  have p2 : (runPrim w s1 .settle).pins = s.pins := (runPrim_frame w s1 .settle).2.2.1.trans p1
  have w2 := pinHistory_runPrim w s1 .settle q
  generalize runPrim w s1 .settle = s2 at *
  have w3 := pinHistory_runPrim w s2 (.drive .weN true) q
  rw [p2, hstay true] at w3
  generalize runPrim w s2 (.drive .weN true) = s3 at *
  have w4 := pinHistory_runPrim w s3 .settle q
  have e (x : Pins) : Prim.settle.onPins x = x := rfl
  rw [w4, w3, w2, w1]
  simp [e]

end Sys2Proof.Machine
end

