-- ==== Sys2Proof/Laws/Encoding.lean ====
section
/-! SUPPORT. The fields of a command word (rules R52, R53): what each reads of an assembled word, that they determine the word,
and that they pass through a mask. -/

namespace Sys2Proof

@[simp] theorem fieldOp_assembleWord (op : BitVec 4) (f : Bool) (d : Byte) (a : Addr) :
    fieldOp (assembleWord op f d a) = op := by
  unfold fieldOp assembleWord; ext i hi; simp; grind

@[simp] theorem fieldRsv_assembleWord (op : BitVec 4) (f : Bool) (d : Byte) (a : Addr) :
    fieldRsv (assembleWord op f d a) = 0#3 := by
  unfold fieldRsv assembleWord; ext i hi; simp; grind

@[simp] theorem fieldF_assembleWord (op : BitVec 4) (f : Bool) (d : Byte) (a : Addr) :
    fieldF (assembleWord op f d a) = f := by
  simp [fieldF, assembleWord]; grind

@[simp] theorem fieldData_assembleWord (op : BitVec 4) (f : Bool) (d : Byte) (a : Addr) :
    fieldData (assembleWord op f d a) = d := by
  unfold fieldData assembleWord; ext i hi; simp; grind

@[simp] theorem fieldAddr_assembleWord (op : BitVec 4) (f : Bool) (d : Byte) (a : Addr) :
    fieldAddr (assembleWord op f d a) = a := by
  unfold fieldAddr assembleWord; ext i hi; simp; grind

@[simp] theorem fieldOp_and (v w : Word) : fieldOp (v &&& w) = fieldOp v &&& fieldOp w := by ext; simp [fieldOp]

@[simp] theorem fieldRsv_and (v w : Word) : fieldRsv (v &&& w) = fieldRsv v &&& fieldRsv w := by ext; simp [fieldRsv]

@[simp] theorem fieldF_and (v w : Word) : fieldF (v &&& w) = (fieldF v && fieldF w) := by simp [fieldF]

@[simp] theorem fieldData_and (v w : Word) : fieldData (v &&& w) = fieldData v &&& fieldData w := by ext; simp [fieldData]

@[simp] theorem fieldAddr_and (v w : Word) : fieldAddr (v &&& w) = fieldAddr v &&& fieldAddr w := by ext; simp [fieldAddr]

/-- A word is its five fields in order (rule R52). -/
theorem word_of_fields (u : Word) :
    u = fieldOp u ++ fieldRsv u ++ BitVec.ofBool (fieldF u) ++ fieldData u ++ fieldAddr u := by
  ext i hi; simp [fieldOp, fieldRsv, fieldF, fieldData, fieldAddr]; grind

/-- Two words are equal exactly when their fields are. -/
theorem word_eq_iff_fields {v w : Word} :
    v = w ↔ fieldOp v = fieldOp w ∧ fieldRsv v = fieldRsv w ∧ fieldF v = fieldF w ∧ fieldData v = fieldData w ∧
      fieldAddr v = fieldAddr w := by
  refine ⟨fun h => by simp [h], fun ⟨h1, h2, h3, h4, h5⟩ => ?_⟩
  rw [word_of_fields v, word_of_fields w, h1, h2, h3, h4, h5]

/-- A row matches a word when the masked fields are the row's. -/
theorem row_hits_iff_fields (r : Row) (w : Word) :
    r.hits w = true ↔ fieldOp w &&& fieldOp r.mask = fieldOp r.value ∧ fieldRsv w &&& fieldRsv r.mask = fieldRsv r.value ∧
      (fieldF w && fieldF r.mask) = fieldF r.value ∧ fieldData w &&& fieldData r.mask = fieldData r.value ∧
      fieldAddr w &&& fieldAddr r.mask = fieldAddr r.value := by
  rw [Row.hits, beq_iff_eq, word_eq_iff_fields]
  simp only [fieldOp_and, fieldRsv_and, fieldF_and, fieldData_and, fieldAddr_and]

/-- `row_hits_iff_fields` for a row written out. -/
theorem row_mk_hits (m v w : Word) (b : Word → Instr) : (Row.mk m v b).hits w = decide (fieldOp w &&& fieldOp m = fieldOp v ∧ fieldRsv w &&& fieldRsv m = fieldRsv v ∧
      (fieldF w && fieldF m) = fieldF v ∧ fieldData w &&& fieldData m = fieldData v ∧
      fieldAddr w &&& fieldAddr m = fieldAddr v) := by
  rw [Bool.eq_iff_iff, row_hits_iff_fields]; simp

set_option linter.unusedSimpArgs false in
/-- The decoder in terms of the fields: OP chooses the command, and every field the command does not use must be zero
(rules R52, R54, R56). -/
theorem decode_fields (w : Word) : decode w =
   let plain := fieldF w = false ∧ fieldData w = 0#8 ∧ fieldAddr w = 0#16
   let bad := Decoded.illegal .unusedBitSet
   if 9#4 ≤ fieldOp w then .illegal .reservedOpcode else
   if fieldRsv w ≠ 0#3 then bad else
   match (fieldOp w).toNat with
   | 0 => if plain then .instr .delay else bad
   | 1 => if plain then .instr .select else bad
   | 2 => if plain then .instr .deselect else bad
   | 3 => if plain then .instr .dirIn else bad
   | 4 => if plain then .instr .dirOut else bad
   | 5 => if fieldData w = 0#8 then .instr (.setAddr (fieldAddr w) (fieldF w)) else bad
   | 6 => if plain then .instr .sample else bad
   | 7 => if fieldF w = false ∧ fieldData w = 0#8 then .instr (.read (fieldAddr w)) else bad
   | _ => if fieldF w = false then .instr (.write (fieldAddr w) (fieldData w)) else bad := by
  unfold decode opcodeMap
  simp only [List.find?, row_mk_hits]
  generalize hO : fieldOp w = o
  generalize hR : fieldRsv w = r
  generalize hF : fieldF w = f
  generalize hD : fieldData w = d
  generalize hA : fieldAddr w = a
  have h15 : ∀ x : BitVec 4, x &&& 15#4 = x := by decide
  have h7 : ∀ x : BitVec 3, x &&& 7#3 = x := by decide
  have hd : ∀ x : BitVec 8, x &&& 255#8 = x := by decide
  have ha : ∀ x : BitVec 16, x &&& 65535#16 = x := fun x => BitVec.and_allOnes
  simp only [fieldOp, fieldRsv, fieldF, fieldData, fieldAddr] at hO hR hF hD hA ⊢
  simp [h15, h7, hd, ha]
  have ho : ∀ x : BitVec 4, x = 0 ∨ x=1 ∨ x=2 ∨ x=3∨ x=4∨ x=5∨ x=6∨ x=7∨ x=8 ∨ 9#4 ≤ x := by decide
  rcases ho o with h|h|h|h|h|h|h|h|h|h
  case inr.inr.inr.inr.inr.inr.inr.inr.inr =>
    have : o ≠ 0 ∧ o ≠ 1 ∧ o ≠ 2 ∧ o ≠ 3 ∧ o ≠ 4 ∧ o ≠ 5 ∧ o ≠ 6 ∧ o ≠ 7 ∧ o ≠ 8 := by clear hO; revert o; decide
    simp_all
  all_goals
    subst h
    clear hO hR h15 h7 hd ha ho
    by_cases hr : r = 0#3 <;> by_cases hd : d = 0#8 <;> by_cases ha : a = 0#16 <;> cases f <;>
      simp [hr, hd, ha] <;> simp_all [fieldAddr, fieldData, fieldF]

/-- Every instruction is well formed: the operand types hold the ranges (rule R35). -/
@[simp] theorem instr_wellFormed (i : Instr) : i.wellFormed = true := by
  cases i <;> simp only [Instr.wellFormed, addrInRange, dataInRange, oeInRange, Bool.and_eq_true, decide_eq_true_eq]
  case setAddr a oe => exact ⟨by omega, by cases oe <;> decide⟩
  case read a => omega
  case write a d => omega

end Sys2Proof
end

