-- ==== Sys2Proof/Laws/PerInstr.lean ====
section
/-! SUPPORT. What holds of every instruction, one lemma per constructor: the fields of its command word. -/

namespace Sys2Proof.Laws.CommandWord

/-- The OP of a command (rule R54). -/
def opOf : Instr → BitVec 4
  | .delay => 0x0#4
  | .select => 0x1#4
  | .deselect => 0x2#4
  | .dirIn => 0x3#4
  | .dirOut => 0x4#4
  | .setAddr _ _ => 0x5#4
  | .sample => 0x6#4
  | .read _ => 0x7#4
  | .write _ _ => 0x8#4

/-- The flag operand of a command, 0 where it has none (rules R52, R53). -/
def flagOf : Instr → Bool
  | .setAddr _ oe => oe
  | .delay | .select | .deselect | .dirIn | .dirOut | .sample | .read _ | .write _ _ => false

/-- The data operand of a command, 0 where it has none (rules R52, R53). -/
def dataOf : Instr → Byte
  | .write _ d => d
  | .delay | .select | .deselect | .dirIn | .dirOut | .sample | .setAddr _ _ | .read _ => 0#8

/-- The address operand of a command, 0 where it has none (rules R52, R53). -/
def addrOf : Instr → Addr
  | .setAddr a _ => a
  | .read a => a
  | .write a _ => a
  | .delay | .select | .deselect | .dirIn | .dirOut | .sample => 0#16

/-- The command's word holds its OP and its operands, zero in every other field; its operands are in range (rules R35, R52 to R54). -/
def Statement (i : Instr) : Prop :=
  i.wellFormed = true ∧ fieldOp (encode i) = opOf i ∧ fieldRsv (encode i) = 0#3 ∧ fieldF (encode i) = flagOf i ∧
    fieldData (encode i) = dataOf i ∧ fieldAddr (encode i) = addrOf i

theorem delay : Statement .delay := by simp [Statement, encode, opOf, flagOf, dataOf, addrOf]

theorem select : Statement .select := by simp [Statement, encode, opOf, flagOf, dataOf, addrOf]

theorem deselect : Statement .deselect := by simp [Statement, encode, opOf, flagOf, dataOf, addrOf]

theorem dirIn : Statement .dirIn := by simp [Statement, encode, opOf, flagOf, dataOf, addrOf]

theorem dirOut : Statement .dirOut := by simp [Statement, encode, opOf, flagOf, dataOf, addrOf]

theorem setAddr (addr : Addr) (oe : Bool) : Statement (.setAddr addr oe) := by
  simp [Statement, encode, opOf, flagOf, dataOf, addrOf]

theorem sample : Statement .sample := by simp [Statement, encode, opOf, flagOf, dataOf, addrOf]

theorem read (addr : Addr) : Statement (.read addr) := by simp [Statement, encode, opOf, flagOf, dataOf, addrOf]

theorem write (addr : Addr) (data : Byte) : Statement (.write addr data) := by
  simp [Statement, encode, opOf, flagOf, dataOf, addrOf]

end Sys2Proof.Laws.CommandWord
end

