-- ==== Sys2Proof/Laws/Wires.lean ====
section
/-! SUPPORT. What each primitive, procedure and sequence puts on the wires, in the terms of Safety.lean: the order of the edges
(rules R62 to R65, R82, R103). -/

namespace Sys2Proof.Machine

/-! ### One pin, one primitive -/

@[simp] theorem levelChange_same (p : Pin) (u : Bool) : levelChange p u u = [] := by simp [levelChange]

theorem levelChange_eq_ite (p : Pin) (u v : Bool) :
    (if levelOf u ≠ levelOf v then [Event.pin p (levelOf v)] else []) = levelChange p u v := by
  cases u <;> cases v <;> rfl

/-- At most one entry, so it reads the same both ways. -/
@[simp] theorem levelChange_reverse (p : Pin) (u v : Bool) : (levelChange p u v).reverse = levelChange p u v := by
  cases u <;> cases v <;> rfl

/-- Where WE_n and CS_n stay, no strobe ends (rule R37). -/
theorem strobeEnds_of_same {p q : Pins} (h1 : q.weN = p.weN) (h2 : q.csN = p.csN) : strobeEnds p q = false := by
  rcases p with ⟨a, m, l, _, _, _, _, _⟩
  rcases q with ⟨a', m', l', _, _, _, _, _⟩
  simp only at h2; subst h2
  cases m <;> cases m' <;> cases l <;> cases l' <;> simp [Pins.weN, levelOf] at h1 <;>
    cases a' <;> simp [strobeEnds, risingEdge, rises, Pins.level, Pins.weN, levelOf]

/-- RCLK rises exactly when it was 0 and is 1 (rule R12). -/
theorem risingEdge_rclk (p q : Pins) : risingEdge .rclk p q = (!p.rclk && q.rclk) := by
  rcases p with ⟨_, _, _, _, _, _, _, a⟩
  rcases q with ⟨_, _, _, _, _, _, _, b⟩
  cases a <;> cases b <;> rfl

/-- AL stays at a primitive at which RCLK does not rise (rule R61). -/
theorem regsAfter_al_hold {p : Prim} {s : State} (h : (!s.pins.rclk && (p.onPins s.pins).rclk) = false) :
    (p.regsAfter s).al = s.regs.al := by
  rw [Prim.regsAfter, latchReaction, risingEdge_rclk, h]
  cases p <;> rfl

/-- What a primitive that moves only SER, SCLK, RCLK or OE_n puts on the wires. -/
theorem wires_runPrim_lines (w : Word) (s : State) (p : Prim) (h1 : (p.onPins s.pins).weN = s.pins.weN)
    (h2 : (p.onPins s.pins).csN = s.pins.csN) (hd : (p.onPins s.pins).dir = s.pins.dir) (hr : p.onRegs s.regs = s.regs) :
    wires (runPrim w s p).trace =
      (if (p.regsAfter s).al ≠ s.regs.al then [.address (p.regsAfter s).al] else [])
        ++ levelChange .oeN s.pins.oeN (p.onPins s.pins).oeN ++ levelChange .rclk s.pins.rclk (p.onPins s.pins).rclk
        ++ levelChange .sclk s.pins.sclk (p.onPins s.pins).sclk ++ levelChange .ser s.pins.ser (p.onPins s.pins).ser
        ++ (if p = .settle then [.settle] else []) ++ wires s.trace := by
  have hdata : s.controllerData = (p.apply s).controllerData := by
    unfold State.controllerData; rw [primApply_pins, primApply_regs, hd, hr]
  have hpins :
      ([Pin.ser, .sclk, .rclk, .oeN, .csN, .weN].flatMap fun q =>
        if s.pins.level q ≠ (p.onPins s.pins).level q then [Event.pin q ((p.onPins s.pins).level q)] else []) =
      levelChange .ser s.pins.ser (p.onPins s.pins).ser ++ (levelChange .sclk s.pins.sclk (p.onPins s.pins).sclk ++
        (levelChange .rclk s.pins.rclk (p.onPins s.pins).rclk ++ (levelChange .oeN s.pins.oeN (p.onPins s.pins).oeN ++ []))) := by
    simp only [← levelChange_eq_ite, List.flatMap_cons, List.flatMap_nil]
    have k1 : s.pins.level .csN = (p.onPins s.pins).level .csN := congrArg levelOf h2.symm
    have k2 : s.pins.level .weN = (p.onPins s.pins).level .weN := h1.symm
    rw [if_neg (not_not.mpr k1), if_neg (not_not.mpr k2)]
    rfl
  rw [wires_runPrim, strobeEnds_of_same h1 h2, if_neg (by simp), hr, ← hdata, if_neg (fun h : ¬ _ => h rfl), hpins]
  simp

theorem wires_settle (w : Word) (s : State) : wires (runPrim w s .settle).trace = .settle :: wires s.trace := by
  rw [wires_runPrim_lines _ _ _ rfl rfl rfl rfl, regsAfter_al_hold (by simp [Prim.onPins])]
  simp [Prim.onPins]

theorem wires_ser (w : Word) (s : State) (b : Bool) :
    wires (runPrim w s (.drive .ser b)).trace = levelChange .ser s.pins.ser b ++ wires s.trace := by
  rw [wires_runPrim_lines _ _ _ rfl rfl rfl rfl, regsAfter_al_hold (by simp [Prim.onPins])]
  simp [Prim.onPins]

theorem wires_sclk (w : Word) (s : State) (b : Bool) :
    wires (runPrim w s (.drive .sclk b)).trace = levelChange .sclk s.pins.sclk b ++ wires s.trace := by
  rw [wires_runPrim_lines _ _ _ rfl rfl rfl rfl, regsAfter_al_hold (by simp [Prim.onPins])]
  simp [Prim.onPins]

theorem wires_oeN (w : Word) (s : State) (b : Bool) :
    wires (runPrim w s (.drive .oeN b)).trace = levelChange .oeN s.pins.oeN b ++ wires s.trace := by
  rw [wires_runPrim_lines _ _ _ rfl rfl rfl rfl, regsAfter_al_hold (by simp [Prim.onPins])]
  simp [Prim.onPins]

/-- A rising edge of RCLK shows SR on the address pins, if it is another address (rule R61). -/
theorem wires_rclk (w : Word) (s : State) (b : Bool) :
    wires (runPrim w s (.drive .rclk b)).trace =
      (if s.pins.rclk = false ∧ b = true ∧ s.regs.al ≠ s.regs.sr then [.address s.regs.sr] else [])
        ++ levelChange .rclk s.pins.rclk b ++ wires s.trace := by
  have hal : ((Prim.drive .rclk b).regsAfter s).al = if s.pins.rclk = false ∧ b = true then s.regs.sr else s.regs.al := by
    rw [Prim.regsAfter, latchReaction, risingEdge_rclk]
    have hs : risingEdge .sclk s.pins ((Prim.drive .rclk b).onPins s.pins) = false := by
      change rises (levelOf s.pins.sclk) (levelOf s.pins.sclk) = false
      cases s.pins.sclk <;> rfl
    rw [shiftReaction, hs]
    cases s.pins.rclk <;> cases b <;> simp [Prim.onPins, Prim.onRegs]
  rw [wires_runPrim_lines _ _ _ rfl rfl rfl rfl, hal]
  by_cases hx : s.pins.rclk = false ∧ b = true
  · by_cases he : s.regs.al = s.regs.sr
    · simp [hx, he, Prim.onPins]
    · simp [hx, he, Ne.symm he, Prim.onPins]
  · have hn : ¬ (s.pins.rclk = false ∧ b = true ∧ s.regs.al ≠ s.regs.sr) := fun h => hx ⟨h.1, h.2.1⟩
    rw [if_neg hx, if_neg hn]
    simp [Prim.onPins]

/-- The data lines change only if DIR = Out and they did not carry the byte. -/
theorem wires_driveData (w : Word) (s : State) (d : Byte) :
    wires (runPrim w s (.driveData d)).trace =
      (if s.pins.dir = .output ∧ s.regs.dout ≠ d then [.data (some d)] else []) ++ wires s.trace := by
  rw [wires_runPrim, strobeEnds_of_same (p := s.pins) (q := (Prim.driveData d).onPins s.pins) rfl rfl,
    regsAfter_al_hold (by simp [Prim.onPins])]
  simp only [Prim.onRegs, Prim.onPins, Prim.apply, State.controllerData, logEventIf]
  cases hd : s.pins.dir <;> by_cases he : s.regs.dout = d <;> simp [he]

/-- `SampleBus()` puts nothing on the wires, in every state. -/
theorem wires_sampleBus (w : Word) (s : State) : wires (sampleBusState w s).trace = wires s.trace := by
  have hser : serialReaction s.pins s.afterBus = s.afterBus := by
    rw [afterBus_eq]; simp [serialReaction, shiftReaction, latchReaction, logEventIf]
  have hs : strobeEnds s.pins s.afterBus.pins = false := by simp [strobeEnds]
  have hc (c : Bool) (tr : List Event) : wires (if c then Event.contention :: tr else tr) = wires tr := by cases c <;> rfl
  rw [sampleBusState, reactions, hser, contentionCheck_trace, hc,
    show commitReaction s s.afterBus = _ from if_neg (by rw [hs]; decide)]
  unfold lostReaction; split
  · change wires (Event.lost _ _ :: s.afterBus.trace) = _
    rw [afterBus_trace]; rfl
  · rw [afterBus_trace]

/-! ### The procedures -/

/-- `ShiftBit(b)` (rule R62). -/
theorem wires_shiftBit (w : Word) (b : Bool) (s : State) (h : s.pins.sclk = false) :
    wires (runPrims w (shiftBit b) s).trace =
      (levelChange .ser s.pins.ser b ++ [Event.settle, .pin .sclk .high, .settle, .pin .sclk .low, .settle]).reverse
        ++ wires s.trace := by
  change wires (runPrim w (runPrim w (runPrim w (runPrim w (runPrim w (runPrim w s _) _) _) _) _) _).trace = _
  rw [wires_settle, wires_sclk, wires_settle, wires_sclk, wires_settle, wires_ser]
  simp only [(runPrim_frame _ _ _).2.2.1, Prim.onPins, h]
  unfold levelChange
  cases s.pins.ser <;> cases b <;> rfl

theorem wires_shiftBits (w : Word) (bs : List Bool) :
    ∀ s : State, s.pins.sclk = false →
      wires (runPrims w (bs.flatMap shiftBit) s).trace = (shiftWires s.pins.ser bs).reverse ++ wires s.trace := by
  induction bs with
  | nil => exact fun _ _ => rfl
  | cons b bs ih =>
    intro s h
    have hp : (runPrims w (shiftBit b) s).pins = { s.pins with ser := b } := by
      rw [(runPrims_frame w _ s).2.2.1, shiftBit_pins _ _ h]
    rw [List.flatMap_cons, runPrims_append, ih _ (by rw [hp]; exact h), wires_shiftBit _ _ _ h, hp]
    simp [shiftWires]

/-- `LatchPulse()` (rules R61, R64). -/
theorem wires_latchPulse (w : Word) (s : State) (h : s.pins.rclk = false) :
    wires (runPrims w latchPulse s).trace = (latchWires s.regs.al s.regs.sr).reverse ++ wires s.trace := by
  change wires (runPrim w (runPrim w (runPrim w (runPrim w (runPrim w (runPrim w s _) _) _) _) _) _).trace = _
  have hr : (runPrim w (runPrim w s (.drive .rclk false)) .settle).regs = s.regs := by
    rw [(runPrim_frame w _ _).2.2.2.1, Prim.regsAfter, (runPrim_frame w s _).2.2.2.1, Prim.regsAfter]
    simp only [Prim.onRegs]
    exact (serialRegs_hold _ _ _ rfl rfl).trans (serialRegs_hold _ _ _ rfl h.symm)
  rw [wires_settle, wires_rclk, wires_settle, wires_rclk, wires_settle, wires_rclk, hr]
  simp only [(runPrim_frame _ _ _).2.2.1, Prim.onPins, h]
  by_cases he : s.regs.al = s.regs.sr <;> simp [he, levelChange, latchWires, levelOf]

/-- The bits of an address are sent a[15] first, a[0] last (rules R63, R65). -/
theorem addrBits_eq_sentBits (a : Addr) : addrBits a = sentBits a := by
  simp [addrBits, sentBits, bitsMsbFirst, addrHigh, addrLow, List.range_succ]

/-- `SetAddress(a, oe)` (rule R65). -/
theorem wires_setAddress (w : Word) (a : Addr) (oe : Bool) (s : State) (h : s.pins.sclk = false) (hr : s.pins.rclk = false) :
    wires (runPrims w (setAddress a oe) s).trace = (setAddressWires s a oe).reverse ++ wires s.trace := by
  rw [setAddress_eq, runPrims_append, runPrims_append]
  change wires (runPrim w (runPrim w (runPrims w latchPulse _) (.drive .oeN (!oe))) .settle).trace = _
  have hp := (runPrims_frame w ((addrBits a).flatMap shiftBit) s).2.2.1
  rw [shiftBits_pins _ _ h] at hp
  have hg := (runPrims_frame w ((addrBits a).flatMap shiftBit) s).2.2.2.1
  rw [shiftBits_regs _ _ _ h, shiftIn_addrBits] at hg
  have hw := wires_shiftBits w (addrBits a) s h
  generalize runPrims w ((addrBits a).flatMap shiftBit) s = u at *
  have hl := wires_latchPulse w u (by rw [hp]; exact hr)
  have hlp := (runPrims_frame w latchPulse u).2.2.1
  rw [latchPulse_pins] at hlp
  rw [wires_settle, wires_oeN, hl, hw, hg, addrBits_eq_sentBits, hlp, hp]
  simp only [setAddressWires, levelChange]
  by_cases ho : s.pins.oeN = !oe <;> simp [ho]

/-! ### The strobe -/

/-- Selected, with OE_n = 1: WE_n low, high with the commit of DOUT, or of a draw while DIR = In (rules R37, R39, R82). -/
theorem wires_strobe_selected (w : Word) (s : State) (h : s.pins.Resting) (hc : s.pins.csN = false) (ho : s.pins.oeN = true) :
    wires (runPrims w strobeSeq s).trace =
      (strobeWires s.regs.al (if s.pins.dir = .output then s.regs.dout else s.nextDraw)).reverse ++ wires s.trace := by
  obtain ⟨d, se, h0⟩ : ∃ d se, s.pins = strobePins true d se := by
    rcases h.cases with h | h
    · exact ⟨s.pins.dir, s.pins.ser, by rw [h, ho]; rfl⟩
    · rw [h] at hc; cases hc
  rw [runPrims_strobeSeq]
  -- WE_n falls
  obtain ⟨tr1, q1⟩ := strobe_quiet w s (.drive .weN false) true false d se h0 (by rw [h0]; rfl) rfl (by decide)
  have x1 := wires_runPrim w s (.drive .weN false)
  have r1 : ((Prim.drive .weN false).regsAfter s).al = s.regs.al := regsAfter_al_hold (by rw [h0]; simp [Prim.onPins, strobePins])
  have e1 : (Prim.drive .weN false).onPins s.pins = strobePins false d se := by rw [h0]; rfl
  have c1 : s.controllerData = ((Prim.drive .weN false).apply s).controllerData := by
    unfold State.controllerData; rw [primApply_pins, primApply_regs, e1, h0]; rfl
  rw [r1, e1, ← c1, h0] at x1
  have k1 : strobeEnds (strobePins true d se) (strobePins false d se) = false := rfl
  have y1 : wires (runPrim w s (.drive .weN false)).trace = .pin .weN .low :: wires s.trace := by
    rw [x1, k1]; cases d <;> cases se <;> simp [Prim.onRegs, Pins.level, strobePins, Pins.weN, levelOf]
  have p1 : (runPrim w s (.drive .weN false)).pins = strobePins false d se := by rw [q1]
  have g1 : (runPrim w s (.drive .weN false)).regs = s.regs := by rw [q1]
  have n1 : (runPrim w s (.drive .weN false)).nextDraw = s.nextDraw := by rw [q1]; rfl
  generalize runPrim w s (.drive .weN false) = s1 at *
  -- the settle between the edges
  obtain ⟨tr2, q2⟩ := strobe_quiet w s1 .settle false false d se p1 (by change s1.pins = _; rw [p1]) rfl (by decide)
  have y2 := wires_settle w s1
  have p2 : (runPrim w s1 .settle).pins = strobePins false d se := by rw [q2]
  have g2 : (runPrim w s1 .settle).regs = s.regs := by rw [q2]; exact g1
  have n2 : (runPrim w s1 .settle).nextDraw = s.nextDraw := by rw [q2]; exact n1
  generalize runPrim w s1 .settle = s2 at *
  -- WE_n rises, and the SRAM commits
  have x3 := wires_runPrim w s2 (.drive .weN true)
  have r3 : ((Prim.drive .weN true).regsAfter s2).al = s2.regs.al := regsAfter_al_hold (by rw [p2]; simp [Prim.onPins, strobePins])
  have e3 : (Prim.drive .weN true).onPins s2.pins = strobePins true d se := by rw [p2]; rfl
  have c3 : s2.controllerData = ((Prim.drive .weN true).apply s2).controllerData := by
    unfold State.controllerData; rw [primApply_pins, primApply_regs, e3, p2]; rfl
  rw [r3, e3, ← c3, p2] at x3
  have k3 : strobeEnds (strobePins false d se) (strobePins true d se) = true := rfl
  have hbus : s2.bus = if d = .output then s.regs.dout else s.nextDraw := by
    rw [State.bus, p2, g2, n2]; cases d <;> rfl
  have y3 : wires (runPrim w s2 (.drive .weN true)).trace =
      .commit s.regs.al (if d = .output then s.regs.dout else s.nextDraw) :: .pin .weN .high :: wires s2.trace := by
    rw [x3, k3, hbus, g2]; cases d <;> cases se <;> simp [Prim.onRegs, Pins.level, strobePins, Pins.weN, levelOf]
  rw [wires_settle, y3, y2, y1, show s.pins.dir = d by rw [h0]; rfl]
  rfl

/-- WE_n driven while it is released makes no entry (rules R12, R20). -/
theorem wires_weN_released (w : Word) (s : State) (v : Bool) (h : s.pins.weMode = .released) :
    wires (runPrim w s (.drive .weN v)).trace = wires s.trace := by
  have e : (Prim.drive .weN v).onPins s.pins = s.pins := by simp [Prim.onPins, h]
  rw [wires_runPrim_lines _ _ _ (by rw [e]) (by rw [e]) (by rw [e]) rfl, regsAfter_al_hold (by rw [e]; simp), e]
  simp

/-- Deselected: two settles and nothing else (rule R20). -/
theorem wires_strobe_deselected (w : Word) (s : State) (h : s.pins.Resting) (hc : s.pins.csN = true) :
    wires (runPrims w strobeSeq s).trace = [.settle, .settle] ++ wires s.trace := by
  have hm : s.pins.weMode = .released := by
    rcases h.cases with h | h
    · rw [h] at hc; cases hc
    · rw [h]
  have hm1 : (runPrim w s (.drive .weN false)).pins.weMode = .released := by
    rw [(runPrim_frame w s _).2.2.1]; simp [Prim.onPins, hm]
  rw [runPrims_strobeSeq, wires_settle, wires_weN_released _ _ _ (by rw [(runPrim_frame w _ .settle).2.2.1]; exact hm1),
    wires_settle, wires_weN_released _ _ _ hm]
  rfl

end Sys2Proof.Machine
end

