-- ==== Sys2Proof/Tests/Slice0.lean ====
section
/-! SUPPORT. The model's own tests: ill-formed lines, written-out words, the vectors of spec/95_test_vectors.md (one step each), and a
witness for the hypotheses of every statement that has some. Expected values come from the spec's tables and worked examples. -/

namespace Sys2Proof.Tests

open Sys2Proof.Machine

/-! ### Helpers -/

/-- The start `CS_n/WE/OE_n/DIR` of spec/95, every other element as after reset. -/
def start (csN oeN : Bool) (d : Dir) : State :=
  { State.reset with
    pins := { Pins.reset with csN := csN, weMode := if csN then .released else .driven, oeN := oeN, dir := d } }

/-- What a view of the state shows after one command. -/
def after {α : Type} (i : Instr) (s : State) (view : State → α) : Option α :=
  match exec i s with
  | .next t => some (view t)
  | .fault _ => none
  | .refused _ => none

/-- What a view of the state shows after one step. -/
def afterStep {α : Type} (s : State) (view : State → α) : Option α :=
  match step s with
  | .next t => some (view t)
  | .fault _ => none
  | .refused _ => none

/-- `CS_n/WE/OE_n/DIR` as spec/95 writes it. -/
def short (s : State) : Bool × Level × Bool × Dir := (s.pins.csN, s.pins.weN, s.pins.oeN, s.pins.dir)

/-- The faults of a state, in the order of rule R88. -/
def faults (s : State) : List FaultCode :=
  [FaultCode.illegalCommand, .notSelected, .directionMismatch, .busContention].filter s.record.faults.has

/-- A state with inputs waiting. -/
def waiting (s : State) (is : List Input) : State := { s with inputs := is }

/-! ### WellFormed: each check refuses an ill-formed line (rule R58) -/

theorem test_setAddr_address_range : (SourceLine.setAddr 0x10000 0).wellFormed = false := by decide

theorem test_setAddr_oe_range : (SourceLine.setAddr 0 2).wellFormed = false := by decide

theorem test_read_address_range : (SourceLine.read 0x10000).wellFormed = false := by decide

theorem test_write_address_range : (SourceLine.write 0x10000 0).wellFormed = false := by decide

theorem test_write_data_range : (SourceLine.write 0 0x100).wellFormed = false := by decide

theorem test_pseudo_address_range :
    (SourceLine.oeOff 0x10000).wellFormed = false ∧ (SourceLine.safeDirOut 0x10000).wellFormed = false ∧
    (SourceLine.openWrite 0x10000).wellFormed = false := by decide

theorem test_largest_operands :
    (SourceLine.setAddr 0xFFFF 1).wellFormed = true ∧ (SourceLine.write 0xFFFF 0xFF).wellFormed = true ∧
    (SourceLine.read 0xFFFF).wellFormed = true := by decide

/-! ### Decode: words written out from the encodings of rule R54, and the table of spec/95 section 2.1 -/

theorem test_word_delay : decode 0b00000000000000000000000000000000#32 = .instr .delay := by decide

theorem test_word_select : decode 0b00010000000000000000000000000000#32 = .instr .select := by decide

theorem test_word_deselect : decode 0b00100000000000000000000000000000#32 = .instr .deselect := by decide

theorem test_word_dirIn : decode 0b00110000000000000000000000000000#32 = .instr .dirIn := by decide

theorem test_word_dirOut : decode 0b01000000000000000000000000000000#32 = .instr .dirOut := by decide

theorem test_word_setAddr :
    decode 0b01010001000000000001001000110100#32 = .instr (.setAddr 0x1234#16 true) ∧
    decode 0b01010000000000001111111111111111#32 = .instr (.setAddr 0xFFFF#16 false) := by decide

theorem test_word_sample : decode 0b01100000000000000000000000000000#32 = .instr .sample := by decide

theorem test_word_read : decode 0b01110000000000001010101111001101#32 = .instr (.read 0xABCD#16) := by decide

theorem test_word_write :
    decode 0b10000000010110101010101111001101#32 = .instr (.write 0xABCD#16 0x5A#8) ∧
    decode 0b10000000111111110000000000000000#32 = .instr (.write 0x0000#16 0xFF#8) := by decide

theorem test_words_illegal :
    [0x00000001#32, 0x11000000#32, 0x50010000#32, 0x52000000#32, 0x71000000#32, 0x81000000#32].all
      (fun w => decide (decode w = .illegal .unusedBitSet)) = true ∧
    [0x90000000#32, 0xF0000000#32, 0xFFFFFFFF#32].all (fun w => decide (decode w = .illegal .reservedOpcode)) = true := by decide

theorem test_decodeTableWord :
    decodeTableWord 32 0x805AABCD = some (.write 0xABCD#16 0x5A#8) ∧ decodeTableWord 32 0x90000000 = none := by decide

/-! ### The assembler: the examples of rule R58, a comment, a pseudo-command, an operand out of range -/

theorem test_assemble_setAddr :
    (assembleText ['S','E','T','A','D','D','R',' ','0','x','1','2','3','4',',',' ','1']).toOption = some [0x51001234#32] := by
  decide +kernel

theorem test_assemble_write_with_comment :
    (assembleText ['W','R','I','T','E',' ','0','x','A','B','C','D',',',' ','9','0',' ',';',' ','x']).toOption
      = some [0x805AABCD#32] := by
  decide +kernel

theorem test_assemble_pseudo :
    (assembleText ['S','A','F','E','_','D','I','R','_','O','U','T',' ','1','6']).toOption
      = some [0x50000010#32, 0x40000000#32] := by
  decide +kernel

theorem test_assemble_out_of_range :
    (assembleText ['R','E','A','D',' ','0','x','1','0','0','0','0']).toOption = none := by decide +kernel

/-! ### The address latch: spec/95 section 2.2 -/

/-- The table's row a = 0x1234 from SR = 0xABCD: SR after 8 and after 16 clocks. -/
theorem test_shift_trace :
    (runPrims 0#32 (shiftOutByte 0x12#8) { State.reset with regs := { State.reset.regs with sr := 0xABCD#16 } }).regs.sr = 0xCD12#16 ∧
    (runPrims 0#32 (shiftOutByte 0x12#8 ++ shiftOutByte 0x34#8)
      { State.reset with regs := { State.reset.regs with sr := 0xABCD#16 } }).regs.sr = 0x1234#16 := by
  decide +kernel

/-- AL1. -/
theorem test_setAddr_AL1 :
    after (.setAddr 0x1234#16 true) State.reset (fun t => (short t, t.regs.sr, t.regs.al, faults t))
      = some ((true, .z, false, .input), 0x1234#16, 0x1234#16, []) := by
  decide +kernel

/-- AL3. -/
theorem test_setAddr_AL3 :
    after (.setAddr 0x0010#16 true) (start false true .output) (fun t => (short t, t.regs.al, faults t))
      = some ((false, .high, false, .output), 0x0010#16, [.busContention]) := by
  decide +kernel

/-! ### The data bus: spec/95 section 2.3 -/

/-- DB1 and DB2. -/
theorem test_bit_orders :
    byteOfLines [true, false, false, false, false, false, false, true] = 0x81#8 ∧
    linesOf 0x55#8 = [false, true, false, true, false, true, false, true] := by decide

/-- DB3. -/
theorem test_sample_DB3 :
    after .sample
      { start false false .input with
        regs := { State.reset.regs with al := 0x0010#16 }
        mem := [(0x0010, 0xC3#8)] }
      (fun t => (t.regs.rdata, t.responses, t.rspValid, faults t)) = some (0xC3#8, [0xC3#8], true, []) := by
  decide +kernel

/-- DB6: the byte is a draw, so only the rest is tested. -/
theorem test_sample_DB6 :
    after .sample (start false true .output) (fun t => (t.responses.length, t.draws, faults t))
      = some (1, 1, [.directionMismatch]) := by
  decide +kernel

/-- DB9. -/
theorem test_dirIn_DB9 :
    after .dirIn { start false false .output with mem := [(0, 0x77#8)] } (fun t => (short t, t.bus, faults t))
      = some ((false, .high, false, .input), 0x77#8, []) := by
  decide +kernel

/-- DB7. -/
theorem test_dirOut_DB7 :
    after .dirOut (start false true .input) (fun t => (short t, faults t)) = some ((false, .high, true, .output), []) := by
  decide +kernel

/-- DB8. -/
theorem test_dirOut_DB8 :
    after .dirOut (start false false .input) (fun t => (short t, faults t, t.record.cmd))
      = some ((false, .high, false, .output), [.busContention], some 0x40000000#32) := by
  decide +kernel

/-! ### Chip control: spec/95 section 2.4 -/

/-- CC1. -/
theorem test_select_CC1 :
    after .select State.reset (fun t => (short t, faults t)) = some ((false, .high, true, .input), []) := by decide +kernel

/-- CC4. -/
theorem test_select_CC4 :
    after .select (start true false .output) (fun t => (short t, faults t))
      = some ((false, .high, false, .output), [.busContention]) := by
  decide +kernel

/-- CC3: no write. -/
theorem test_deselect_CC3 :
    after .deselect (start false false .input) (fun t => (short t, faults t, commits t.trace))
      = some ((true, .z, false, .input), [], []) := by
  decide +kernel

/-- CC6: DESELECT adds no fault. -/
theorem test_deselect_CC6 :
    after .deselect (start false false .output) (fun t => (short t, faults t)) = some ((true, .z, false, .output), []) := by
  decide +kernel

/-! ### The byte sequencer: spec/95 section 2.5 -/

/-- BS2. -/
theorem test_write_BS2 :
    after (.write 0xFFFF#16 0xFF#8) (start false true .output)
      (fun t => (t.mem, t.pins.ser, faults t)) = some ([(0xFFFF, 0xFF#8)], true, []) := by
  decide +kernel

/-- The order of rule R82, newest first: the data and its settle, then WE_n low, a settle, WE_n high with the commit, a settle. -/
theorem test_write_wires :
    after (.write 0x0001#16 0x5A#8) (start false true .output) (fun t => (wires t.trace).take 7)
      = some [.settle, .commit 0x0001#16 0x5A#8, .pin .weN .high, .settle, .pin .weN .low, .settle, .data (some 0x5A#8)] := by
  decide +kernel

/-- BS6: the strobe is suppressed while deselected. -/
theorem test_write_BS6 :
    after (.write 0x0007#16 0x01#8) { start true true .output with mem := [(7, 0x99#8)] }
      (fun t => (t.mem, t.regs.dout, faults t)) = some ([(7, 0x99#8)], 0x01#8, [.notSelected]) := by
  decide +kernel

/-- The worked example of rule R81. -/
theorem test_read_worked_example :
    after (.read 0xFFFF#16) { start false true .input with mem := [(0xFFFF, 0x7E#8)] }
      (fun t => (short t, t.regs.rdata, t.responses, faults t))
      = some ((false, .high, false, .input), 0x7E#8, [0x7E#8], []) := by
  decide +kernel

/-- BS9: DirectionMismatch is the first fault, BusContention the second. -/
theorem test_read_BS9 :
    after (.read 0x0007#16) (start false true .output) (fun t => (short t, faults t, t.record.first))
      = some ((false, .high, false, .output), [.directionMismatch, .busContention], some .directionMismatch) := by
  decide +kernel

/-- BS12. -/
theorem test_delay_BS12 :
    after .delay (start false true .output) State.noTrace = some (start false true .output).noTrace := by decide +kernel

/-! ### Steps of the outside world -/

/-- Rule R56, the last paragraph of spec/95 section 2.1. -/
theorem test_illegal_word :
    afterStep (waiting State.reset [.command 0x90000000#32]) (fun t => (short t, t.responses, faults t, t.record.cmd))
      = some ((true, .z, true, .input), [], [.illegalCommand], some 0x90000000#32) := by
  decide +kernel

/-- Rule R46: the external master changes a cell while the chip is deselected, and takes no step while it is selected. -/
theorem test_external_master :
    afterStep (waiting State.reset [.extWrite 0x0003#16 0x9C#8]) State.mem = some [(3, 0x9C#8)] ∧
    afterStep (waiting (start false true .input) [.extWrite 0x0003#16 0x9C#8]) State.mem = some [] := by
  decide +kernel

/-- The draws of one reset. -/
def someDraws : ResetDraws :=
  { regs := { sr := 0x1234#16, al := 0xABCD#16, dout := 0x5A#8, rdata := 0xA5#8 }, cells := [(0x0002#16, 0x42#8)] }

/-- Rule R97. -/
theorem test_reset_event :
    afterStep (waiting (start false false .output) [.reset someDraws]) (fun t => (short t, t.mem, faults t))
      = some ((true, .z, true, .input), [(2, 0x42#8)], []) ∧
    afterStep (waiting (start false false .output) [.reset someDraws]) State.regs = some someDraws.regs := by
  decide +kernel

/-- Rule R79: the next step after `withFetchWord` runs that word. -/
theorem test_withFetchWord : afterStep (State.reset.withFetchWord 32 0x10000000) short = some (false, .high, true, .input) := by
  decide +kernel

/-! ### Witnesses: states that meet all the hypotheses of a statement together -/

/-- Selected, OE_n = 0, DIR = In: the state a READ leaves. -/
def reading : State := start false false .input

/-- Selected, OE_n = 1, DIR = Out: the state a write session begins in. -/
def writing : State := start false true .output

/-- Selected, OE_n = 0, DIR = Out, with the contention recorded. -/
def contending : State :=
  { start false false .output with record := FaultRecord.empty.raise .busContention 0x40000000#32 }

theorem resting_start (csN oeN : Bool) (d : Dir) : (start csN oeN d).pins.Resting := by
  cases csN <;> constructor <;> simp [start, Pins.reset]

theorem inv_start (csN oeN : Bool) (d : Dir) (h : (start csN oeN d).pins.contended = false) : (start csN oeN d).Inv :=
  ⟨resting_start csN oeN d, rfl, rfl, rfl, fun hc => absurd hc (by rw [h]; decide)⟩

theorem inv_contending : contending.Inv := ⟨resting_start false false .output, rfl, rfl, rfl, fun _ _ => rfl⟩

/-- DecodeOfEncodeIsIdentity, at the greatest operands. -/
theorem witness_DecodeOfEncodeIsIdentity :
    (Instr.setAddr 0xFFFF#16 true).wellFormed = true ∧ (Instr.write 0xFFFF#16 0xFF#8).wellFormed = true ∧
    (Instr.read 0x0000#16).wellFormed = true := by decide

/-- EncodeOfDecodeIsIdentity. -/
theorem witness_EncodeOfDecodeIsIdentity : decode 0x80FFFFFF#32 = .instr (.write 0xFFFF#16 0xFF#8) := by decide

/-- IllegalWordsOnlyRecordTheFault, both kinds of Illegal word. -/
theorem witness_IllegalWordsOnlyRecordTheFault :
    (waiting State.reset [.command 0x90000000#32]).seq = .idle ∧
    (waiting State.reset [.command 0x90000000#32]).inputs = [.command 0x90000000#32] ∧
    decode 0x90000000#32 = .illegal .reservedOpcode ∧
    (waiting State.reset [.command 0x8F000000#32]).inputs = [.command 0x8F000000#32] ∧
    decode 0x8F000000#32 = .illegal .unusedBitSet := by decide

/-- IllegalWordsOnlyRecordTheFault, with RSP_VALID = 1 from an earlier response. -/
theorem witness_IllegalWordsOnlyRecordTheFault_valid :
    ({ State.reset with rspValid := true, inputs := [.command 0x90000000#32] } : State).rspValid = true ∧
    afterStep { State.reset with rspValid := true, inputs := [.command 0x90000000#32] } State.responses = some [] := by decide +kernel

/-- OutOfRangeOperandsDoNotAssemble: the first number out of range and the last in range. -/
theorem witness_OutOfRangeOperandsDoNotAssemble :
    (SourceLine.write 0x10000 0).wellFormed = false ∧ (SourceLine.write 0xFFFF 0xFF).wellFormed = true ∧
    (SourceLine.openWrite 0x10000).wellFormed = false ∧ (SourceLine.openWrite 0xFFFF).wellFormed = true := by decide

/-- SerialEdgesShiftAndLatch: primitives that raise SCLK, raise RCLK, and raise neither. -/
theorem witness_SerialEdgesShiftAndLatch :
    (State.reset.pins.sclk = false ∧ (runPrim 0#32 State.reset (.drive .sclk true)).pins.sclk = true) ∧
    (State.reset.pins.rclk = false ∧ (runPrim 0#32 State.reset (.drive .rclk true)).pins.rclk = true) ∧
    ¬ (State.reset.pins.sclk = false ∧ (runPrim 0#32 State.reset .settle).pins.sclk = true) ∧
    ¬ (State.reset.pins.rclk = false ∧ (runPrim 0#32 State.reset .settle).pins.rclk = true) := by decide +kernel

/-- The middle of a WRITE's strobe, WE_n = 0, with AL and DOUT set. -/
def strobing : State :=
  { writing with
    pins := { writing.pins with weLvl := false }
    regs := { State.reset.regs with al := 0xFFFF#16, dout := 0xA5#8 } }

/-- CS_n = 0 with WE_n = Z: a condition of rule R38. -/
def unpaired : State :=
  { writing with pins := { writing.pins with weMode := .released } }

/-- StrobeEndCommitsTheBus: the edge, a primitive with no edge, a condition of rule R38. -/
theorem witness_StrobeEndCommitsTheBus :
    (cellLost strobing (runPrim 0#32 strobing (.drive .weN true)) = false ∧ strobing.pins.level .weN = .low ∧
      (runPrim 0#32 strobing (.drive .weN true)).pins.level .weN = .high ∧
      (runPrim 0#32 strobing (.drive .weN true)).pins.csN = false) ∧
    (cellLost writing (runPrim 0#32 writing .settle) = false ∧ writing.pins.level .weN ≠ .low) ∧
    (cellLost unpaired (runPrim 0#32 unpaired .settle) = true ∧ unpaired.mem.wf = true) := by decide +kernel

/-- The end of a strobe commits DOUT at AL (rule R37). -/
theorem test_strobe_end : (runPrim 0#32 strobing (.drive .weN true)).mem = [(0xFFFF, 0xA5#8)] := by decide +kernel

/-- DrivenByteSamplesBack: eight lines, the first and the last of them. -/
theorem witness_DrivenByteSamplesBack :
    [true, false, false, false, false, false, false, true].length = 8 ∧ (0 : Nat) < 8 ∧ (7 : Nat) < 8 := by decide

/-- BusResolvesByItsDrivers: the controller alone, the SRAM alone, both, nobody. -/
theorem witness_BusResolvesByItsDrivers :
    (writing.pins.dir = .output ∧ writing.pins.sramDrives = false) ∧ (reading.pins.dir = .input ∧ reading.pins.sramDrives = true) ∧
    (contending.pins.dir = .output ∧ contending.pins.sramDrives = true) ∧
    (State.reset.pins.dir = .input ∧ State.reset.pins.sramDrives = false) := by decide

/-- ShiftBitSetsSerBeforeTheClock, SixteenShiftsLeaveTheAddress, AddressPinsChangeOnce, DelayOnlyWaits, SelectDrivesWeThenCs, DeselectRaisesCsThenReleasesWe,
DirInReleasesTheBus, DirOutDrivesDout, SetAddrLatchesTheAddress: pins that rest, selected and not. -/
theorem witness_Resting :
    reading.pins.Resting ∧ reading.pins.selected = true ∧ reading.pins.oeN = false ∧
    State.reset.pins.Resting ∧ State.reset.pins.selected = false :=
  ⟨resting_start _ _ _, rfl, rfl, resting_start true true .input, rfl⟩

/-- DelayOnlyWaits, its last clause, in contention and not. -/
theorem witness_DelayOnlyWaits : contending.pins.contended = true ∧ contending.Inv ∧ writing.pins.contended = false ∧ writing.Inv :=
  ⟨rfl, inv_contending, rfl, inv_start _ _ _ rfl⟩

/-- SampleReturnsTheBus: the SRAM drives; deselected; selected with OE_n = 1; DIR = Out, in contention and not. -/
theorem witness_SampleReturnsTheBus :
    (reading.pins.Resting ∧ reading.pins.dir = .input ∧ reading.pins.selected = true ∧ reading.pins.oeN = false) ∧
    (State.reset.pins.Resting ∧ State.reset.pins.dir = .input ∧ State.reset.pins.selected = false) ∧
    ((start false true .input).pins.Resting ∧ (start false true .input).pins.dir = .input ∧
      (start false true .input).pins.oeN = true) ∧
    (writing.pins.Resting ∧ writing.pins.dir = .output) ∧ (contending.pins.Resting ∧ contending.pins.dir = .output) :=
  ⟨⟨resting_start _ _ _, rfl, rfl, rfl⟩, ⟨resting_start true true .input, rfl, rfl⟩, ⟨resting_start _ _ _, rfl, rfl⟩,
    ⟨resting_start _ _ _, rfl⟩, inv_contending.resting, rfl⟩

/-- ReadReturnsTheCell: in discipline; deselected; DIR = Out; both. -/
theorem witness_ReadReturnsTheCell :
    (reading.pins.Resting ∧ reading.readReady = true) ∧
    (State.reset.pins.Resting ∧ State.reset.readReady = false) ∧ (writing.pins.Resting ∧ writing.readReady = false) ∧
    ((start true true .output).pins.Resting ∧ (start true true .output).readReady = false) :=
  ⟨⟨resting_start _ _ _, rfl⟩, ⟨resting_start true true .input, rfl⟩, ⟨resting_start _ _ _, rfl⟩, resting_start _ _ _, rfl⟩

/-- WriteStoresTheByte, its clauses: in discipline, from contention and not; Selected with DIR = In; deselected, in both
directions. -/
theorem witness_WriteStoresTheByte :
    (writing.pins.Resting ∧ writing.writeReady = true ∧ writing.mem.wf = true) ∧
    (contending.pins.Resting ∧ contending.writeReady = true ∧ contending.mem.wf = true) ∧
    (reading.pins.Resting ∧ reading.pins.selected = true ∧ reading.pins.dir = .input ∧ reading.mem.wf = true) ∧
    (State.reset.pins.Resting ∧ State.reset.pins.selected = false ∧ State.reset.pins.dir = .input) ∧
    ((start true true .output).pins.Resting ∧ (start true true .output).pins.selected = false) :=
  ⟨⟨resting_start _ _ _, rfl, rfl⟩, ⟨inv_contending.resting, rfl, rfl⟩, ⟨resting_start _ _ _, rfl, rfl, rfl⟩,
    ⟨resting_start true true .input, rfl, rfl⟩, resting_start _ _ _, rfl⟩

/-- SecondWriteReplacesTheFirst: both writes answer. -/
theorem witness_SecondWriteReplacesTheFirst :
    ∃ t u, writing.pins.Resting ∧ writing.mem.wf = true ∧ writing.writeReady = true ∧
      exec (.write 0x0042#16 0x11#8) writing = .next t ∧ exec (.write 0x0042#16 0x22#8) t = .next u :=
  ⟨_, _, resting_start _ _ _, rfl, rfl, rfl, rfl⟩

/-- OnlyWriteStores, FaultsAreRecordedInOrder, LatchAndStrobeEdgesInOrder, OneCommitPerWrite, CommandsLeaveThePinsResting,
EachElementHasItsWriters, SettleCountsPerCommand: a WRITE while selected, a WRITE while deselected, a READ. -/
theorem witness_exec :
    (∃ t, writing.pins.Resting ∧ writing.mem.wf = true ∧ writing.record = FaultRecord.empty ∧ writing.pins.selected = true ∧
      writing.pins.dir = .output ∧ exec (.write 0xFFFF#16 0xFF#8) writing = .next t) ∧
    (∃ t, State.reset.pins.Resting ∧ State.reset.pins.selected = false ∧ State.reset.record = FaultRecord.empty ∧
      exec (.write 0x0000#16 0x00#8) State.reset = .next t) ∧
    (∃ t, reading.pins.Resting ∧ reading.record = FaultRecord.empty ∧ exec (.read 0x8000#16) reading = .next t) :=
  ⟨⟨_, resting_start _ _ _, rfl, rfl, rfl, rfl, rfl⟩, ⟨_, resting_start true true .input, rfl, rfl, rfl⟩,
    _, resting_start _ _ _, rfl, rfl⟩

/-- LatchAndStrobeEdgesInOrder, its other clauses: a WRITE while Selected with DIR = In, a SETADDR, SELECT and DESELECT in both states. -/
theorem witness_LatchAndStrobeEdgesInOrder :
    reading.pins.Resting ∧ State.reset.pins.Resting ∧
    (∃ t, exec (.write 0xFFFF#16 0xFF#8) reading = .next t) ∧ (∃ t, exec (.setAddr 0x0000#16 true) reading = .next t) ∧
    (∃ t, exec .select State.reset = .next t) ∧ (∃ t, exec .select reading = .next t) ∧
    (∃ t, exec .deselect State.reset = .next t) ∧ (∃ t, exec .deselect reading = .next t) :=
  ⟨resting_start _ _ _, resting_start true true .input, ⟨_, rfl⟩, ⟨_, rfl⟩, ⟨_, rfl⟩, ⟨_, rfl⟩, ⟨_, rfl⟩, _, rfl⟩

/-- OutputEnableStaysAsserted: a READ answers, and a command that is neither WRITE nor SETADDR with oe = 0 runs with OE_n = 0. -/
theorem witness_OutputEnableStaysAsserted :
    (∃ t, exec (.read 0x0000#16) State.reset = .next t) ∧ (∃ t, exec .deselect reading = .next t) ∧ reading.pins.oeN = false ∧
    (∀ a, Instr.deselect ≠ .setAddr a false) ∧ (∀ a d, Instr.deselect ≠ .write a d) :=
  ⟨⟨_, rfl⟩, ⟨_, rfl⟩, rfl, by simp, by simp⟩

/-- RaiseWritesTheRecordOnly: a record with no first fault and one with a first fault. -/
theorem witness_RaiseWritesTheRecordOnly : State.reset.record.first = none ∧ contending.record.first ≠ none := by decide

/-- FaultsAreSticky: a step from a state with a fault recorded and no reset waiting. -/
theorem witness_FaultsAreSticky :
    (∃ t, step (waiting contending [.command 0x30000000#32]) = .next t) ∧
    (∀ d rest, (waiting contending [.command 0x30000000#32]).inputs ≠ .reset d :: rest) ∧
    contending.record.faults.has .busContention = true ∧ contending.record.first ≠ none :=
  ⟨⟨_, rfl⟩, by simp [waiting], by decide, by decide⟩

/-- The state of `contending` with CONTENTION_IS_FAULT = false and nothing recorded. -/
def tolerant : State :=
  { start false false .output with params := { Config.defaults with contentionIsFault := false } }

/-- ContentionIsNoFaultWhenTheParameterIsFalse. -/
theorem witness_ContentionIsNoFaultWhenTheParameterIsFalse :
    ∃ t, tolerant.params.contentionIsFault = false ∧ step (waiting tolerant [.command 0x00000000#32]) = .next t ∧
      (waiting tolerant [.command 0x00000000#32]).record.faults.busContention = false ∧ tolerant.pins.contended = true :=
  ⟨_, rfl, rfl, rfl, rfl⟩

/-- ContentionAtTheEndIsFound: DIR_OUT while the SRAM drives. -/
theorem witness_ContentionAtTheEndIsFound :
    after .dirOut reading (fun t => (t.pins.contended, t.params.contentionIsFault)) = some (true, true) := by decide +kernel

/-- ControlCommandsAreIdempotent. -/
theorem witness_ControlCommandsAreIdempotent :
    ∃ t u, reading.pins.Resting ∧ exec .dirOut reading = .next t ∧ exec .dirOut t = .next u :=
  ⟨_, _, resting_start _ _ _, rfl, rfl⟩

/-- NoCellIsEverLost: a trace with such an event before the command. -/
theorem witness_NoCellIsEverLost :
    ∃ t, writing.pins.Resting ∧ exec .delay { writing with trace := [.lost 0x0001#16 0x02#8] } = .next t ∧
      Event.lost 0x0001#16 0x02#8 ∈ t.trace :=
  ⟨_, resting_start _ _ _, rfl, by decide⟩

/-- MemoryNeverSteersTheBlock: two contents of M, one command. -/
theorem witness_MemoryNeverSteersTheBlock :
    ∃ t t', exec (.read 0x0003#16) reading = .next t ∧ exec (.read 0x0003#16) { reading with mem := [(3, 0x9C#8)] } = .next t' :=
  ⟨_, _, rfl, rfl⟩

/-- StepRunsTheDecodedInstruction, a decoded and an Illegal word; EveryStepFromIdleAnswersNext. -/
theorem witness_StepRunsTheDecodedInstruction :
    (waiting State.reset [.command 0x805AABCD#32]).seq = .idle ∧
    (waiting State.reset [.command 0x805AABCD#32]).inputs = [.command 0x805AABCD#32] ∧
    decode 0x805AABCD#32 = .instr (.write 0xABCD#16 0x5A#8) ∧
    (waiting State.reset [.command 0x90000000#32]).seq = .idle ∧ decode 0x90000000#32 = .illegal .reservedOpcode ∧
    State.reset.seq = .idle ∧ State.reset.inputs = [] := by decide

/-- BusyBetweenStepsStops. -/
theorem witness_BusyBetweenStepsStops :
    { State.reset with seq := .busy }.seq = .busy ∧ ∀ d rest, { State.reset with seq := .busy }.inputs ≠ .reset d :: rest :=
  ⟨rfl, by simp [State.reset]⟩

/-- ResetPutsEveryElement. -/
theorem witness_ResetPutsEveryElement :
    (waiting contending [.reset someDraws]).inputs = [.reset someDraws] := rfl

/-- EndedRunWaitsForTheHost: the run has ended with the external master's step still waiting, its step changes M and the run stays
ended; a word or SEQ = Busy keeps it from its end. -/
theorem witness_EndedRunWaitsForTheHost :
    (waiting State.reset [.extWrite 0x1234#16 0x9C#8]).ended = true ∧
    (∀ d rest, (waiting State.reset [.extWrite 0x1234#16 0x9C#8]).inputs ≠ .reset d :: rest) ∧
    afterStep (waiting State.reset [.extWrite 0x1234#16 0x9C#8]) (fun t => (t.mem, t.ended, t.final))
      = some ([(0x1234, 0x9C#8)], true, true) ∧
    (waiting contending []).ended = true ∧ (waiting contending []).final = false ∧
    (waiting State.reset [.extWrite 0x1234#16 0x9C#8, .command 0x00000000#32]).ended = false ∧
    { State.reset with seq := .busy }.ended = false := by
  refine ⟨by decide, by simp [waiting], by decide +kernel, by decide, by decide, by decide, by decide⟩

/-- ResetCanDrawAnyMemory: a memory with cells at both ends of the address space. -/
theorem witness_ResetCanDrawAnyMemory : Memory.wf [(0, 0x01#8), (0xFFFF, 0xFF#8)] = true := by decide

/-- ExternalMasterStepsOnlyWhileDeselected: it may step; the chip is selected; there is none. -/
theorem witness_ExternalMasterStepsOnlyWhileDeselected :
    ((waiting State.reset [.extWrite 0#16 1#8]).seq = .idle ∧
      (waiting State.reset [.extWrite 0#16 1#8]).inputs = [.extWrite 0#16 1#8] ∧
      State.reset.params.externalMaster = true ∧ State.reset.pins.csN = true) ∧
    ((waiting writing [.extWrite 0#16 1#8]).seq = .idle ∧ writing.pins.csN = false) ∧
    { Config.defaults with externalMaster := false }.externalMaster = false := by decide

/-- StepKeepsTheInvariant: from reset, and from contention that has been recorded. -/
theorem witness_StepKeepsTheInvariant :
    (State.reset.Inv ∧ ∃ t, step State.reset = .next t) ∧
    (contending.Inv ∧ ∃ t, step contending = .next t) :=
  ⟨⟨⟨resting_start true true .input, rfl, rfl, rfl, fun h => absurd h (by decide)⟩, _, rfl⟩, inv_contending, _, rfl⟩

/-- CellsChangeOnlyByTheirCauses: each of its three causes changes a cell. -/
theorem witness_CellsChangeOnlyByTheirCauses :
    afterStep (waiting writing [.command 0x805AABCD#32]) (fun t => t.mem.read 0xABCD#16) = some 0x5A#8 ∧
    afterStep (waiting State.reset [.extWrite 0xABCD#16 0x5A#8]) (fun t => t.mem.read 0xABCD#16) = some 0x5A#8 ∧
    afterStep (waiting State.reset [.reset someDraws]) (fun t => t.mem.read 0x0002#16) = some 0x42#8 ∧
    writing.mem.read 0xABCD#16 = 0x00#8 ∧ State.reset.mem.read 0x0002#16 = 0x00#8 := by
  decide +kernel

/-- A run that answers, and what a check says of its state. -/
theorem run_of_check {o : Host.Outcome State Fault Refusal} (check : State → Bool)
    (h : (match o with | .next u => check u | .fault _ => false | .refused _ => false) = true) :
    ∃ u, o = .next u ∧ check u = true := by
  cases o with
  | next u => exact ⟨u, rfl, h⟩
  | fault r => cases h
  | refused r => cases h

/-- A WRITE, DIR_IN, then the READ. -/
def writeThenRead : State :=
  waiting writing [.command (encode (.write 0x1234#16 0xA5#8)), .command 0x30000000#32, .command (encode (.read 0x1234#16))]

/-- ReadAfterWriteReturnsTheByte: the chip stays selected throughout, and no other step comes between. -/
theorem witness_ReadAfterWriteReturnsTheByte :
    writeThenRead.Inv ∧ writeThenRead.writeReady = true ∧
    (∀ d, Input.reset d ∉ [Input.command 0x30000000#32]) ∧
    (∀ v, Input.extWrite 0x1234#16 v ∉ [Input.command 0x30000000#32]) ∧
    (∀ w, Input.command w ∈ [Input.command 0x30000000#32] → decode w ≠ .instr .deselect) ∧
    ∃ u, runSteps 2 writeThenRead = .next u ∧ u.readReady = true ∧
      commits u.trace = commits writeThenRead.trace ++ (0x1234#16, 0xA5#8) :: [] := by
  have hd : decode 0x30000000#32 = .instr .dirIn := by decide
  refine ⟨⟨resting_start _ _ _, rfl, rfl, rfl, fun h => absurd h (by decide)⟩, rfl, by simp, by simp, ?_, ?_⟩
  · intro w hw; simp only [List.mem_singleton, Input.command.injEq] at hw; rw [hw, hd]; simp
  · obtain ⟨u, hu, hc⟩ := run_of_check (o := runSteps 2 writeThenRead)
      (fun u => u.readReady && decide (commits u.trace = [(0x1234#16, 0xA5#8)])) (by decide +kernel)
    simp only [Bool.and_eq_true, decide_eq_true_eq] at hc
    exact ⟨u, hu, hc.1, hc.2⟩

/-- A WRITE, then a WRITE elsewhere while the external master is absent, then the READ. -/
def writeTwiceThenRead : State :=
  { contending with
    params := { Config.defaults with externalMaster := false }
    inputs := [.command (encode (.write 0xFFFF#16 0x00#8)), .command (encode (.write 0x0000#16 0xFF#8)), .command 0x20000000#32,
      .command 0x10000000#32, .command 0x30000000#32, .command (encode (.read 0xFFFF#16))] }

/-- ReadAfterWriteReturnsTheByte: a commit elsewhere, a DESELECT and a SELECT come between, and there is no external master. -/
theorem witness_ReadAfterWriteReturnsTheByte_absent :
    writeTwiceThenRead.Inv ∧ writeTwiceThenRead.writeReady = true ∧ writeTwiceThenRead.params.externalMaster = false ∧
    ∃ u, runSteps 5 writeTwiceThenRead = .next u ∧ u.readReady = true ∧
      commits u.trace = commits writeTwiceThenRead.trace ++ (0xFFFF#16, 0x00#8) :: [(0x0000#16, 0xFF#8)] := by
  refine ⟨⟨resting_start false false .output, rfl, rfl, rfl, fun _ _ => rfl⟩, rfl, rfl, ?_⟩
  obtain ⟨u, hu, hc⟩ := run_of_check (o := runSteps 5 writeTwiceThenRead)
    (fun u => u.readReady && decide (commits u.trace = [(0xFFFF#16, 0x00#8), (0x0000#16, 0xFF#8)])) (by decide +kernel)
  simp only [Bool.and_eq_true, decide_eq_true_eq] at hc
  exact ⟨u, hu, hc.1, hc.2⟩

/-- PseudoCommandsDoNotContend: OPEN_WRITE while the chip is deselected with DIR = Out and OE_n = 0. -/
theorem witness_PseudoCommandsDoNotContend :
    ∃ t, (start true false .output).Inv ∧ (start true false .output).pins.contended = false ∧
      assembleLine (.openWrite 0x0100) = .ok [.setAddr 0x0100#16 false, .select, .dirOut] ∧
      runSteps 3 (waiting (start true false .output)
        ([Instr.setAddr 0x0100#16 false, .select, .dirOut].map (fun i => .command (encode i)))) = .next t := by
  obtain ⟨t, ht, -⟩ := run_of_check
    (o := runSteps 3 (waiting (start true false .output)
      ([Instr.setAddr 0x0100#16 false, .select, .dirOut].map (fun i => .command (encode i)))))
    (fun t => t.pins.selected) (by decide +kernel)
  exact ⟨t, inv_start _ _ _ rfl, rfl, rfl, ht⟩

end Sys2Proof.Tests
end

section
/-! PROOFS of the statements of 00_scope.md: the reset meets the invariant, the record of a command while contention is no fault, and the control
commands as maps of the pins. -/

namespace Sys2Proof.Machine

/-! ### Reset -/

/-- Pins at their reset levels, SEQ = Idle, an empty record and a canonical M are enough for the invariant, whatever the parameters and
the registers (rules R27, R33). -/
theorem State.inv_of_resetValues {s : State} (hp : s.pins = Pins.reset) (hq : s.seq = .idle) (hm : s.mem.wf = true)
    (hr : s.record = FaultRecord.empty) : s.Inv where
  resting := by rw [hp]; constructor <;> decide
  idle := hq
  memWf := hm
  recordOk := by rw [hr]; rfl
  contentionRecorded h := by rw [hp] at h; exact absurd h (by decide)

/-- Settles O45: each of the three states has the reset values of rule R33, and the cells drawn make a canonical M. -/
theorem resetMeetsTheInvariant : Obligations.ResetMeetsTheInvariant :=
  ⟨State.inv_of_resetValues rfl rfl Memory.wf_reset rfl,
   fun d _ => State.inv_of_resetValues rfl rfl (Memory.wf_ofCells d.cells) rfl,
   fun d _ => State.inv_of_resetValues rfl rfl (Memory.wf_ofCells d.cells) rfl⟩

/-! ### The record while contention is no fault -/

/-- A fault of another code leaves BusContention as it was (rule R87). -/
theorem FaultRecord.raise_busContention {r : FaultRecord} {c : FaultCode} {w : Word} (h : c ≠ .busContention) :
    (r.raise c w).faults.busContention = r.faults.busContention := by
  have hins : (r.faults.insert c).busContention = r.faults.busContention := by
    cases c with
    | busContention => exact absurd rfl h
    | illegalCommand | notSelected | directionMismatch => rfl
  unfold FaultRecord.raise
  split <;> exact hins

theorem FaultRecord.raiseIf_busContention {r : FaultRecord} {b : Bool} {c : FaultCode} {w : Word} (h : c ≠ .busContention) :
    (r.raiseIf b c w).faults.busContention = r.faults.busContention := by
  cases b with
  | false => rfl
  | true => exact FaultRecord.raise_busContention h

/-- With CONTENTION_IS_FAULT = false a sequence records nothing (rule R40). -/
theorem runPrims_record_tolerant (w : Word) (ps : List Prim) (s : State) (h : s.params.contentionIsFault = false) :
    (runPrims w ps s).record = s.record := by
  obtain ⟨-, -, -, -, -, hrec, -, -⟩ := runPrims_frame w ps s
  rw [hrec, h, Bool.and_false, FaultRecord.raiseIf_false]

@[simp] theorem runPrims_params (w : Word) (ps : List Prim) (s : State) : (runPrims w ps s).params = s.params :=
  (runPrims_frame w ps s).1

/-- With CONTENTION_IS_FAULT = false `SampleBus()` records nothing (rule R40). -/
theorem sampleBusState_record_tolerant (w : Word) (s : State) (h : s.params.contentionIsFault = false) :
    (sampleBusState w s).record = s.record := by
  obtain ⟨-, -, -, -, -, hrec, -, -⟩ := sampleBusState_frame w s
  rw [hrec, State.contentionRecord, h, Bool.and_false, FaultRecord.raiseIf_false]

/-- With CONTENTION_IS_FAULT = false a command records its own two checks and nothing else, in every state (rules R40, R86, R88). -/
theorem exec_record_tolerant {i : Instr} {s t : State} (h : exec i s = .next t) (hc : s.params.contentionIsFault = false) :
    t.record = (s.record.raiseIf (needsSelect i && !s.pins.selected) .notSelected (encode i)).raiseIf
      (mismatch i s.pins) .directionMismatch (encode i) := by
  cases i with
  | delay | select | deselect | dirIn | dirOut | setAddr a oe | write a d =>
    injection h with h
    rw [← h]
    exact runPrims_record_tolerant _ _ _ hc
  | sample | read a =>
    injection h with h
    rw [← h]
    split <;> simp [respondDraw, respondSample, runPrims_record_tolerant, sampleBusState_record_tolerant, hc, needsSelect, mismatch]

/-- Settles O28: a reset empties the record, and otherwise only IllegalCommand, NotSelected and DirectionMismatch can be raised. -/
theorem contentionIsNoFaultWhenTheParameterIsFalse : Obligations.ContentionIsNoFaultWhenTheParameterIsFalse := by
  intro s t hc hstep hrec
  rcases step_cases hstep with ⟨d, rest, -, rfl⟩ | ⟨-, ⟨-, rfl⟩ | ⟨a, v, rest, -, rfl⟩ | ⟨w, rest, why, -, -, rfl⟩ |
    ⟨w, rest, i, u, -, -, hexec, rfl⟩⟩
  · rfl
  · exact hrec
  · rw [extWrite]; split <;> exact hrec
  · exact (FaultRecord.raise_busContention (by decide)).trans hrec
  · change u.record.faults.busContention = false
    rw [exec_record_tolerant hexec hc, FaultRecord.raiseIf_busContention (by decide),
      FaultRecord.raiseIf_busContention (by decide)]
    exact hrec

/-! ### The control commands as maps of the pins -/

/-- The four commands that only move CS_n, WE_n or the direction mux. -/
def IsControl (i : Instr) : Prop := i = .select ∨ i = .deselect ∨ i = .dirIn ∨ i = .dirOut

/-- Their primitives (rules R72, R73, R76, R77). -/
def controlSeq : Instr → List Prim
  | .select => selectSeq
  | .deselect => deselectSeq
  | .dirIn => dirInSeq
  | .dirOut => dirOutSeq
  | .delay | .setAddr _ _ | .sample | .read _ | .write _ _ => []

/-- Their net effect on the pin drivers (rules R72, R73, R76, R77). -/
def controlPins : Instr → Pins → Pins
  | .select, p => { p with csN := false, weMode := .driven, weLvl := true }
  | .deselect, p => { p with csN := true, weMode := .released }
  | .dirIn, p => { p with dir := .input }
  | .dirOut, p => { p with dir := .output }
  | .delay, p | .setAddr _ _, p | .sample, p | .read _, p | .write _ _, p => p

/-- A moment is calm when WE_n is high, or Z while deselected. -/
theorem Pins.calm_iff (p : Pins) : p.Calm ↔ p.weN = .high ∨ p.weN = .z ∧ p.csN = true := by
  constructor
  · rintro ⟨hlow, hpair⟩
    cases hcs : p.csN with
    | false => exact .inl (hpair hcs)
    | true =>
      cases hw : p.weN with
      | low => exact absurd hw hlow
      | high => exact .inl rfl
      | z => exact .inr ⟨rfl, rfl⟩
  · rintro (hw | ⟨hw, hcs⟩)
    · exact ⟨by simp [hw], fun _ => hw⟩
    · exact ⟨by simp [hw], by simp [hcs]⟩

theorem Pins.Resting.sramDrives_eq {p : Pins} (h : p.Resting) : p.sramDrives = (p.selected && !p.oeN) := by
  rcases h.cases with hp | hp <;> rw [hp] <;> cases p.oeN <;> rfl

section
variable {i : Instr} (hi : IsControl i)
include hi

theorem exec_control (s : State) : exec i s = .next (runPrims (encode i) (controlSeq i) s) := by
  rcases hi with rfl | rfl | rfl | rfl <;> rfl

theorem pinsAfter_controlSeq (p : Pins) : pinsAfter (controlSeq i) p = controlPins i p := by
  rcases hi with rfl | rfl | rfl | rfl <;> rfl

/-- The serial clocks and DOUT stay, so the registers do. -/
theorem regsAfter_controlSeq (p : Pins) (r : Regs) : regsAfter (controlSeq i) p r = r := by
  rcases hi with rfl | rfl | rfl | rfl <;>
    simp [controlSeq, selectSeq, deselectSeq, dirInSeq, dirOutSeq, regsAfter, Prim.onPins, Prim.onRegs, serialRegs_hold]

/-- The order of CS_n and WE_n in SELECT and DESELECT keeps every moment calm (rules R76, R77). -/
theorem calmIn_controlSeq {p : Pins} (h : p.Resting) : CalmIn (controlSeq i) p := by
  rcases h.cases with hp | hp <;> rw [hp] <;> rcases hi with rfl | rfl | rfl | rfl <;>
    simp [controlSeq, selectSeq, deselectSeq, dirInSeq, dirOutSeq, CalmIn, Pins.calm_iff, Prim.onPins, Pins.weN, levelOf]

theorem contendedIn_controlSeq {p : Pins} (h : p.Resting) : contendedIn (controlSeq i) p = contends i p := by
  rcases hi with rfl | rfl | rfl | rfl
  · rcases h.cases with hp | hp <;> rw [hp] <;> cases p.dir <;> cases p.oeN <;> rfl
  · simp [controlSeq, deselectSeq, contendedIn, contends, Prim.onPins, Pins.contended, Pins.sramDrives]
  · simp [controlSeq, dirInSeq, contendedIn, contends, Prim.onPins, Pins.contended_input]
  · have hd : ({ p with dir := .output } : Pins).contended = p.sramDrives := rfl
    simp [controlSeq, dirOutSeq, contendedIn, contends, Prim.onPins, hd, h.sramDrives_eq]

theorem controlPins_resting {p : Pins} (h : p.Resting) : (controlPins i p).Resting := by
  obtain ⟨hpair, hlvl, hsclk, hrclk⟩ := h
  rcases hi with rfl | rfl | rfl | rfl
  · exact ⟨by simp [controlPins], rfl, hsclk, hrclk⟩
  · exact ⟨by simp [controlPins], hlvl, hsclk, hrclk⟩
  · exact ⟨hpair, hlvl, hsclk, hrclk⟩
  · exact ⟨hpair, hlvl, hsclk, hrclk⟩

theorem controlPins_controlPins (p : Pins) : controlPins i (controlPins i p) = controlPins i p := by
  rcases hi with rfl | rfl | rfl | rfl <;> rfl

/-- Where a control command contends, it contends when it is given again, and only there. -/
theorem contends_controlPins (p : Pins) : contends i (controlPins i p) = contends i p := by
  rcases hi with rfl | rfl | rfl | rfl <;> rfl

/-- Everything a control command does from pins that rest (rules R72, R73, R76, R77). -/
theorem exec_control_spec {s t : State} (hs : s.pins.Resting) (h : exec i s = .next t) :
    ∃ tr, t =
      { s with
        pins := controlPins i s.pins
        record := s.recordAfter (contends i s.pins) (encode i)
        trace := tr } := by
  obtain ⟨tr, hrun⟩ := runPrims_calm (encode i) (controlSeq i) s (calmIn_controlSeq hi hs)
  rw [exec_control hi, hrun, pinsAfter_controlSeq hi, regsAfter_controlSeq hi, contendedIn_controlSeq hi hs] at h
  injection h with h
  exact ⟨tr, h.symm⟩

end

/-- Settles O33: a control command's map of the pins is idempotent, and it contends again exactly where it contended, which is recorded
already. -/
theorem controlCommandsAreIdempotent : Obligations.ControlCommandsAreIdempotent := by
  intro s t u i hs hi ht hu
  obtain ⟨tr, rfl⟩ := exec_control_spec hi hs ht
  obtain ⟨tr', rfl⟩ := exec_control_spec hi (controlPins_resting hi hs) hu
  simp [State.noTrace, State.recordAfter, controlPins_controlPins hi, contends_controlPins hi]

end Sys2Proof.Machine
end

section
/-! PROOFS of the statements of 10_state.md: the reset event, what every command does to the pins, the registers and the record in every state,
and that a step keeps the invariant. -/

namespace Sys2Proof.Machine

/-! ### The reset event -/

/-- A reset is taken in every state, whatever SEQ is (rule R97). -/
theorem step_reset {s : State} {d : ResetDraws} {rest : List Input} (h : s.inputs = .reset d :: rest) :
    step s = .next (resetEvent d { s with inputs := rest }) := by
  simp only [step, h]

/-- Settles O41: the step is the reset event, whose fields are those of `State.afterReset`. -/
theorem resetPutsEveryElement : Obligations.ResetPutsEveryElement := by
  intro s d rest h
  exact ⟨resetEvent d { s with inputs := rest }, step_reset h,
    by simp [resetEvent, State.afterReset, State.reset, Pins.reset, FaultRecord.empty]⟩

/-- A cell below every listed one goes to the front. -/
theorem Memory.writeAt_below {m : Memory} {lo k : Nat} {v : Byte} (hm : Memory.wfFrom lo m = true) (hk : k < lo)
    (hv : v ≠ Memory.unlisted) : Memory.writeAt m k v = (k, v) :: m := by
  cases m with
  | nil => simp [Memory.writeAt, hv]
  | cons c rest =>
    obtain ⟨j, b⟩ := c
    obtain ⟨hj, -, -, -⟩ := Memory.wfFrom_cons.mp hm
    simp [Memory.writeAt, hv, show k < j by omega]

/-- The cells a reset draws to leave `m`, the highest address first, so that each write goes to the front. -/
def Memory.draws (m : Memory) : List (Addr × Byte) := (m.map fun c => (BitVec.ofNat 16 c.1, c.2)).reverse

theorem Memory.ofCells_draws {m : Memory} {lo : Nat} (hm : Memory.wfFrom lo m = true) : Memory.ofCells m.draws = m := by
  induction m generalizing lo with
  | nil => rfl
  | cons c rest ih =>
    obtain ⟨k, b⟩ := c
    obtain ⟨-, hk, hb, hrest⟩ := Memory.wfFrom_cons.mp hm
    have hlast : Memory.ofCells (Memory.draws ((k, b) :: rest)) =
        (Memory.ofCells (Memory.draws rest)).write (BitVec.ofNat 16 k) b := by
      simp [Memory.ofCells, Memory.draws]
    rw [hlast, ih hrest, Memory.write, BitVec.toNat_ofNat, Nat.mod_eq_of_lt hk]
    exact Memory.writeAt_below hrest (Nat.lt_succ_self k) hb

/-- Settles O42: the reset that draws the registers and, from the highest address down, the listed cells of M. -/
theorem resetCanDrawAnyMemory : Obligations.ResetCanDrawAnyMemory :=
  fun _ _ r m hm => ⟨⟨r, m.draws⟩, _, step_reset rfl, Memory.ofCells_draws hm, rfl⟩

/-! ### The fault record only grows -/

/-- `r'` has every fault of `r`, and the first fault and its word as they are in `r` if they are there (rule R87). -/
structure FaultRecord.Extends (r' r : FaultRecord) : Prop where
  has : ∀ c, r.faults.has c = true → r'.faults.has c = true
  first : r.first ≠ none → r'.first = r.first ∧ r'.cmd = r.cmd

theorem FaultRecord.Extends.refl (r : FaultRecord) : r.Extends r := ⟨fun _ h => h, fun _ => ⟨rfl, rfl⟩⟩

theorem FaultRecord.Extends.trans {r r' r'' : FaultRecord} (h' : r''.Extends r') (h : r'.Extends r) : r''.Extends r where
  has c hc := h'.has c (h.has c hc)
  first hf := by
    obtain ⟨h1, h2⟩ := h.first hf
    obtain ⟨h1', h2'⟩ := h'.first (h1 ▸ hf)
    exact ⟨h1'.trans h1, h2'.trans h2⟩

theorem FaultSet.has_insert (f : FaultSet) (c c' : FaultCode) : (f.insert c).has c' = (decide (c' = c) || f.has c') := by
  cases c <;> cases c' <;> rfl

@[simp] theorem FaultRecord.raise_faults (r : FaultRecord) (c : FaultCode) (w : Word) :
    (r.raise c w).faults = r.faults.insert c := by
  unfold FaultRecord.raise; split <;> rfl

theorem FaultRecord.extends_raise (r : FaultRecord) (c : FaultCode) (w : Word) : (r.raise c w).Extends r where
  has c' h := by rw [FaultRecord.raise_faults, FaultSet.has_insert, h, Bool.or_true]
  first h := by
    unfold FaultRecord.raise
    split
    · exact absurd ‹_› h
    · exact ⟨rfl, rfl⟩

theorem FaultRecord.extends_raiseIf (r : FaultRecord) (b : Bool) (c : FaultCode) (w : Word) : (r.raiseIf b c w).Extends r := by
  cases b with
  | false => exact .refl r
  | true => exact r.extends_raise c w

/-- `raise Fault` keeps the record in agreement with itself: the first fault is the one raised, or it was there. -/
theorem FaultRecord.consistent_raise {r : FaultRecord} (h : r.consistent = true) (c : FaultCode) (w : Word) :
    (r.raise c w).consistent = true := by
  unfold FaultRecord.raise FaultRecord.consistent at *
  cases hf : r.first with
  | none => simp [FaultSet.has_insert]
  | some d => simp_all [FaultSet.has_insert]

theorem FaultRecord.consistent_raiseIf {r : FaultRecord} (h : r.consistent = true) (b : Bool) (c : FaultCode) (w : Word) :
    (r.raiseIf b c w).consistent = true := by
  cases b with
  | false => exact h
  | true => exact FaultRecord.consistent_raise h c w

/-! ### A command as its checks, its primitives and its response -/

/-- The primitives of a command up to its sample, if it takes one (rules R68, R72 to R74, R76, R77, R81 to R83). -/
def commandSeq : Instr → List Prim
  | .delay | .sample => [.settle]
  | .select => selectSeq
  | .deselect => deselectSeq
  | .dirIn => dirInSeq
  | .dirOut => dirOutSeq
  | .setAddr a oe => setAddress a oe
  | .read a => readSeq a
  | .write a d => writeSeq a d

/-- SAMPLE and READ write RDATA and answer (rules R24, R32). -/
def Answers (i : Instr) : Prop := i = .sample ∨ ∃ a, i = .read a

/-- SETADDR, READ and WRITE send an address (rule R65). -/
def Sends (i : Instr) : Prop := (∃ a oe, i = .setAddr a oe) ∨ (∃ a, i = .read a) ∨ ∃ a d, i = .write a d

/-- The state once the checks before the first primitive are made (rule R88). -/
def State.checked (i : Instr) (s : State) : State :=
  raiseFaultIf (mismatch i s.pins) .directionMismatch (encode i)
    (raiseFaultIf (needsSelect i && !s.pins.selected) .notSelected (encode i) s)

/-- The state once the primitives are done. -/
def State.driven (i : Instr) (s : State) : State := runPrims (encode i) (commandSeq i) (s.checked i)

/-- Everything a command can do: its checks and its primitives; then SAMPLE and READ sample the bus, draw, or both, and answer. -/
theorem exec_cases {i : Instr} {s t : State} (h : exec i s = .next t) :
    (¬ Answers i ∧ t = s.driven i) ∨
    (Answers i ∧ ∃ v u, t = respond v u ∧
      (u = (s.driven i).useDraw ∨ u = sampleBusState (encode i) (s.driven i) ∨
        u = (sampleBusState (encode i) (s.driven i)).useDraw)) := by
  cases i with
  | delay | select | deselect | dirIn | dirOut | setAddr a oe | write a d =>
    injection h with h
    exact .inl ⟨by simp [Answers], h.symm⟩
  | sample =>
    injection h with h
    refine .inr ⟨.inl rfl, ?_⟩
    subst h
    split
    · exact ⟨_, _, rfl, .inl rfl⟩
    · exact ⟨_, _, rfl, .inr (.inl rfl)⟩
  | read a =>
    injection h with h
    refine .inr ⟨.inr ⟨a, rfl⟩, ?_⟩
    subst h
    split
    · exact ⟨_, _, rfl, .inr (.inr rfl)⟩
    · exact ⟨_, _, rfl, .inr (.inl rfl)⟩

/-! ### What every command does in every state -/

/-- Contention at the end of a sequence is contention in it. -/
theorem contendedIn_of_pinsAfter {ps : List Prim} {p : Pins} (hps : ps ≠ []) (h : (pinsAfter ps p).contended = true) :
    contendedIn ps p = true := by
  induction ps generalizing p with
  | nil => exact absurd rfl hps
  | cons q qs ih =>
    rw [contendedIn, Bool.or_eq_true]
    cases qs with
    | nil => exact .inl h
    | cons q' qs' => exact .inr (ih (List.cons_ne_nil _ _) h)

theorem commandSeq_ne_nil (i : Instr) : commandSeq i ≠ [] := by
  cases i <;> exact List.cons_ne_nil _ _

theorem reactions_memWf (w : Word) (b s : State) (h : s.mem.wf = true) : (reactions w b s).mem.wf = true := by
  have hcommit : (commitReaction b (serialReaction b.pins s)).mem.wf = true := by
    unfold commitReaction; split
    · exact Memory.wf_write h _ _
    · exact h
  rw [reactions, contentionCheck_mem]
  unfold lostReaction; split
  · exact Memory.wf_write hcommit _ _
  · exact hcommit

theorem sampleBusState_memWf (w : Word) (s : State) (h : s.mem.wf = true) : (sampleBusState w s).mem.wf = true :=
  reactions_memWf w s s.afterBus (by rw [afterBus_mem]; exact h)

/-- The record after a command: its two checks, and BusContention if contention held after some primitive (rules R40, R86, R88). -/
def State.commandRecord (i : Instr) (s : State) : FaultRecord :=
  (s.checked i).record.raiseIf (contendedIn (commandSeq i) s.pins && s.params.contentionIsFault) .busContention (encode i)

/-- What a command leaves alone, what it does to the pin drivers, the registers and the record, and that M stays canonical. -/
structure ExecFrame (i : Instr) (s t : State) : Prop where
  params : t.params = s.params
  seq : t.seq = s.seq
  inputs : t.inputs = s.inputs
  pins : t.pins = pinsAfter (commandSeq i) s.pins
  sr : t.regs.sr = (regsAfter (commandSeq i) s.pins s.regs).sr
  al : t.regs.al = (regsAfter (commandSeq i) s.pins s.regs).al
  dout : t.regs.dout = (regsAfter (commandSeq i) s.pins s.regs).dout
  record : t.record = s.commandRecord i
  memWf : s.mem.wf = true → t.mem.wf = true

theorem driven_execFrame (i : Instr) (s : State) : ExecFrame i s (s.driven i) := by
  obtain ⟨hparams, hseq, hpins, hregs, -, hrec, hin, -⟩ := runPrims_frame (encode i) (commandSeq i) (s.checked i)
  exact ⟨hparams, hseq, hin, hpins, congrArg Regs.sr hregs, congrArg Regs.al hregs, congrArg Regs.dout hregs, hrec,
    runPrims_memWf _ _ (s.checked i)⟩

/-- The check of rule R40 after `SampleBus()` finds what the last primitive's check has found. -/
theorem driven_contentionRecord (i : Instr) (s : State) : (s.driven i).contentionRecord (encode i) = s.commandRecord i := by
  have hf := driven_execFrame i s
  have hlast : (contendedIn (commandSeq i) s.pins || (s.driven i).pins.contended) = contendedIn (commandSeq i) s.pins := by
    cases hc : (s.driven i).pins.contended with
    | false => exact Bool.or_false _
    | true => rw [contendedIn_of_pinsAfter (commandSeq_ne_nil i) (hf.pins ▸ hc)]; rfl
  rw [State.contentionRecord, hf.record, hf.params, State.commandRecord, FaultRecord.raiseIf_or, ← Bool.and_or_distrib_right,
    hlast]

theorem sampled_execFrame (i : Instr) (s : State) : ExecFrame i s (sampleBusState (encode i) (s.driven i)) := by
  have hf := driven_execFrame i s
  obtain ⟨hparams, hseq, hpins, hregs, -, hrec, hin, -⟩ := sampleBusState_frame (encode i) (s.driven i)
  exact ⟨hparams.trans hf.params, hseq.trans hf.seq, hin.trans hf.inputs, hpins.trans hf.pins,
    (congrArg Regs.sr hregs).trans hf.sr, (congrArg Regs.al hregs).trans hf.al, (congrArg Regs.dout hregs).trans hf.dout,
    hrec.trans (driven_contentionRecord i s), fun hm => sampleBusState_memWf _ _ (hf.memWf hm)⟩

/-- A draw and the response touch neither the pins, SR, AL, DOUT, the record nor M. -/
theorem exec_frame {i : Instr} {s t : State} (h : exec i s = .next t) : ExecFrame i s t := by
  rcases exec_cases h with ⟨-, rfl⟩ | ⟨-, v, u, rfl, rfl | rfl | rfl⟩
  · exact driven_execFrame i s
  · exact { driven_execFrame i s with }
  · exact { sampled_execFrame i s with }
  · exact { sampled_execFrame i s with }

/-! ### The pins after a command -/

/-- `SetAddress(a, oe)` from any pins: the serial clocks end low, whatever they were (rules R23, R65). -/
theorem pinsAfter_setAddress (a : Addr) (oe : Bool) (p : Pins) :
    pinsAfter (setAddress a oe) p = { p with ser := a.getLsbD 0, sclk := false, rclk := false, oeN := !oe } := by
  have hbits : pinsAfter ((addrBits a).flatMap shiftBit) p = { p with ser := a.getLsbD 0, sclk := false } := by
    rw [show addrBits a = (addrHigh a).getLsbD 7 :: (addrBits a).tail from rfl, List.flatMap_cons, pinsAfter_append,
      show pinsAfter (shiftBit ((addrHigh a).getLsbD 7)) p = { p with ser := (addrHigh a).getLsbD 7, sclk := false } from rfl,
      shiftBits_pins _ _ rfl]
    exact congrArg (fun b => ({ p with ser := b, sclk := false } : Pins)) (lastBit_addrBits a p.ser)
  rw [setAddress_eq, pinsAfter_append, pinsAfter_append, hbits, latchPulse_pins, driveOe_pins]

/-- The strobe leaves WE_LVL = 1 where WE_n is driven, and nothing where it is released (rule R20). -/
theorem pinsAfter_strobeSeq (p : Pins) :
    pinsAfter strobeSeq p = { p with weLvl := p.weLvl || decide (p.weMode = .driven) } := by
  rcases p with ⟨cs, m, l, oe, d, se, sc, rc⟩
  cases m <;> cases l <;> rfl

/-- The net effect of a command on the pin drivers (rules R68, R72 to R74, R76, R77, R81 to R83). -/
def commandPins : Instr → Pins → Pins
  | .setAddr a oe, p => { p with ser := a.getLsbD 0, sclk := false, rclk := false, oeN := !oe }
  | .read a, p => { p with ser := a.getLsbD 0, sclk := false, rclk := false, oeN := false }
  | .write a _, p =>
    { p with ser := a.getLsbD 0, sclk := false, rclk := false, oeN := true, weLvl := p.weLvl || decide (p.weMode = .driven) }
  | i, p => controlPins i p

theorem pinsAfter_commandSeq (i : Instr) (p : Pins) : pinsAfter (commandSeq i) p = commandPins i p := by
  cases i with
  | delay | select | deselect | dirIn | dirOut | sample => rfl
  | setAddr a oe => exact pinsAfter_setAddress a oe p
  | read a => rw [commandSeq, readSeq, pinsAfter_append, pinsAfter_setAddress]; rfl
  | write a d =>
    rw [commandSeq, writeSeq, pinsAfter_append, pinsAfter_append, pinsAfter_setAddress, pinsAfter_strobeSeq]
    rfl

theorem exec_pins {i : Instr} {s t : State} (h : exec i s = .next t) : t.pins = commandPins i s.pins := by
  rw [(exec_frame h).pins, pinsAfter_commandSeq]

theorem commandPins_resting (i : Instr) {p : Pins} (h : p.Resting) : (commandPins i p).Resting := by
  cases i with
  | delay | sample => exact h
  | select => exact controlPins_resting (.inl rfl) h
  | deselect => exact controlPins_resting (.inr (.inl rfl)) h
  | dirIn => exact controlPins_resting (.inr (.inr (.inl rfl))) h
  | dirOut => exact controlPins_resting (.inr (.inr (.inr rfl))) h
  | setAddr a oe | read a => exact ⟨h.wePaired, h.weHigh, rfl, rfl⟩
  | write a d => exact ⟨h.wePaired, by simp [commandPins, h.weHigh], rfl, rfl⟩

/-- Settles O47: the net effect of each command keeps pins at rest. -/
theorem commandsLeaveThePinsResting : Obligations.CommandsLeaveThePinsResting := by
  intro s t i hrest h
  rw [exec_pins h]
  exact commandPins_resting i hrest

/-- Settles O24: OE_n in the net effect of each command. -/
theorem outputEnableStaysAsserted : Obligations.OutputEnableStaysAsserted := by
  refine ⟨fun s t a h => by rw [exec_pins h]; rfl, fun s t i h hoe hset hwrite => ?_⟩
  rw [exec_pins h]
  cases i with
  | delay | select | deselect | dirIn | dirOut | sample => exact hoe
  | read a => rfl
  | write a d => exact absurd rfl (hwrite a d)
  | setAddr a oe =>
    cases oe with
    | true => rfl
    | false => exact absurd rfl (hset a)

/-! ### The registers after a command -/

/-- DOUT changes only at `DriveData` (rule R19). -/
theorem regsAfter_dout {ps : List Prim} (h : ∀ b, Prim.driveData b ∉ ps) (p : Pins) (r : Regs) :
    (regsAfter ps p r).dout = r.dout := by
  induction ps generalizing p r with
  | nil => rfl
  | cons q qs ih =>
    rw [regsAfter, ih fun b hb => h b (List.mem_cons_of_mem _ hb)]
    cases q with
    | driveData b => exact absurd List.mem_cons_self (h b)
    | drive | driveWeHigh | releaseWe | setDir | settle => rfl

/-- RDATA is no register of the primitives: only a response writes it (rule R24). -/
theorem regsAfter_rdata (ps : List Prim) (p : Pins) (r : Regs) : (regsAfter ps p r).rdata = r.rdata := by
  induction ps generalizing p r with
  | nil => rfl
  | cons q qs ih => rw [regsAfter, ih]; cases q <;> rfl

theorem driveData_notMem_setAddress (a : Addr) (oe : Bool) (b : Byte) : Prim.driveData b ∉ setAddress a oe := by
  simp [setAddress_eq, shiftBit, latchPulse]

/-- Without an address to send, the serial clocks stay and with them SR and AL (rules R60, R61). -/
theorem regsAfter_commandSeq {i : Instr} (h : ¬ Sends i) (p : Pins) (r : Regs) : regsAfter (commandSeq i) p r = r := by
  cases i with
  | delay | sample => simp [commandSeq, regsAfter, Prim.onPins, Prim.onRegs, serialRegs_hold]
  | select => exact regsAfter_controlSeq (.inl rfl) p r
  | deselect => exact regsAfter_controlSeq (.inr (.inl rfl)) p r
  | dirIn => exact regsAfter_controlSeq (.inr (.inr (.inl rfl))) p r
  | dirOut => exact regsAfter_controlSeq (.inr (.inr (.inr rfl))) p r
  | setAddr | read | write => exact absurd (by simp [Sends]) h

/-- Only WRITE loads DOUT (rule R19). -/
theorem driveData_notMem_commandSeq {i : Instr} (h : ∀ a d, i ≠ .write a d) (b : Byte) : Prim.driveData b ∉ commandSeq i := by
  cases i with
  | delay | sample | select | deselect | dirIn | dirOut =>
    simp [commandSeq, selectSeq, deselectSeq, dirInSeq, dirOutSeq]
  | setAddr a oe => exact driveData_notMem_setAddress a oe b
  | read a => simp [commandSeq, readSeq, driveData_notMem_setAddress]
  | write a d => exact absurd rfl (h a d)

/-- A command that answers nothing leaves RDATA, the responses and RSP_VALID. -/
theorem exec_silent {i : Instr} {s t : State} (h : exec i s = .next t) (hi : ¬ Answers i) :
    t.regs.rdata = s.regs.rdata ∧ t.responses = s.responses ∧ t.rspValid = s.rspValid := by
  rcases exec_cases h with ⟨-, rfl⟩ | ⟨ha, -⟩
  · obtain ⟨-, -, -, hregs, hvalid, -, -, hresp⟩ := runPrims_frame (encode i) (commandSeq i) (s.checked i)
    exact ⟨(congrArg Regs.rdata hregs).trans (regsAfter_rdata _ _ _), hresp, hvalid⟩
  · exact absurd ha hi

/-- The writer table of the pin drivers (rules R18, R20 to R23). -/
theorem commandPins_writers (i : Instr) (p : Pins) :
    ((commandPins i p).csN ≠ p.csN → i = .select ∨ i = .deselect) ∧
    ((commandPins i p).weMode ≠ p.weMode → i = .select ∨ i = .deselect) ∧
    ((commandPins i p).weLvl ≠ p.weLvl → i = .select ∨ ∃ a d, i = .write a d) ∧
    ((commandPins i p).oeN ≠ p.oeN → Sends i) ∧
    ((commandPins i p).dir ≠ p.dir → i = .dirIn ∨ i = .dirOut) ∧
    ((commandPins i p).ser ≠ p.ser ∨ (commandPins i p).sclk ≠ p.sclk ∨ (commandPins i p).rclk ≠ p.rclk → Sends i) := by
  cases i with
  | delay | sample | select | deselect | dirIn | dirOut => simp [commandPins, controlPins]
  | setAddr | read | write => simp [commandPins, Sends]

/-- Settles O23: the pins by their writer table, SR and AL by the serial clocks, DOUT by `DriveData`, RDATA by the response. -/
theorem eachElementHasItsWriters : Obligations.EachElementHasItsWriters := by
  intro s t i h
  have hf := exec_frame h
  obtain ⟨hcs, hmode, hlvl, hoe, hdir, hser⟩ := exec_pins h ▸ commandPins_writers i s.pins
  refine ⟨hf.params, hf.inputs, hf.seq, hcs, hmode, hlvl, hoe, hdir, hser, fun hne => ?_, fun hne => ?_, fun hne => ?_⟩
  · by_contra hi
    have hregs := regsAfter_commandSeq (i := i) hi s.pins s.regs
    simp [hf.sr, hf.al, hregs] at hne
  · by_contra hi
    have hmem := driveData_notMem_commandSeq (i := i) fun a d hw => hi ⟨a, d, hw⟩
    exact hne (hf.dout.trans (regsAfter_dout hmem _ _))
  · by_contra hi
    obtain ⟨hrdata, hresp, hvalid⟩ := exec_silent h hi
    simp [hrdata, hresp, hvalid] at hne

/-! ### The record and the invariant over a step -/

theorem State.extends_commandRecord (i : Instr) (s : State) : (s.commandRecord i).Extends s.record :=
  (FaultRecord.extends_raiseIf _ _ _ _).trans
    ((FaultRecord.extends_raiseIf _ _ _ _).trans (FaultRecord.extends_raiseIf _ _ _ _))

theorem State.consistent_commandRecord (i : Instr) {s : State} (h : s.record.consistent = true) :
    (s.commandRecord i).consistent = true :=
  FaultRecord.consistent_raiseIf (FaultRecord.consistent_raiseIf (FaultRecord.consistent_raiseIf h _ _ _) _ _ _) _ _ _

/-- Contention that is left at the end of a command has been recorded (rule R40). -/
theorem exec_contentionRecorded {i : Instr} {s t : State} (h : exec i s = .next t) (hc : t.pins.contended = true)
    (hp : t.params.contentionIsFault = true) : t.record.faults.busContention = true := by
  have hf := exec_frame h
  rw [hf.pins] at hc
  rw [hf.params] at hp
  rw [hf.record, State.commandRecord, contendedIn_of_pinsAfter (commandSeq_ne_nil i) hc, hp]
  exact congrArg FaultSet.busContention (FaultRecord.raise_faults _ _ _)

/-- A step that is no reset only extends the record. -/
theorem step_extends {s t : State} (h : step s = .next t) (hreset : ∀ d rest, s.inputs ≠ .reset d :: rest) :
    t.record.Extends s.record := by
  rcases step_cases h with ⟨d, rest, hin, -⟩ | ⟨-, ⟨-, rfl⟩ | ⟨a, v, rest, -, rfl⟩ | ⟨w, rest, why, -, -, rfl⟩ |
    ⟨w, rest, i, u, -, -, hexec, rfl⟩⟩
  · exact absurd hin (hreset d rest)
  · exact .refl _
  · rw [extWrite]; split <;> exact .refl _
  · exact s.record.extends_raise _ _
  · exact (exec_frame hexec).record ▸ (accept rest s).extends_commandRecord i

/-- Settles O27: a step that is no reset only extends the record. -/
theorem faultsAreSticky : Obligations.FaultsAreSticky :=
  fun _ _ h hreset => ⟨(step_extends h hreset).has, (step_extends h hreset).first⟩

/-- A command that starts between two steps of the invariant ends in the invariant. -/
theorem exec_inv {i : Instr} {s u : State} {rest : List Input} (hs : s.Inv) (h : exec i (accept rest s) = .next u) :
    ({ u with seq := .idle } : State).Inv where
  resting := (exec_pins h ▸ commandPins_resting i hs.resting : u.pins.Resting)
  idle := rfl
  memWf := (exec_frame h).memWf hs.memWf
  recordOk := by
    change u.record.consistent = true
    rw [(exec_frame h).record]
    exact State.consistent_commandRecord i hs.recordOk
  contentionRecorded := exec_contentionRecorded (t := u) h

/-- The external master's step changes M alone, and leaves it canonical (rule R46). -/
theorem extWrite_eq (a : Addr) (v : Byte) (s : State) :
    ∃ m, extWrite a v s = { s with mem := m } ∧ (s.mem.wf = true → m.wf = true) := by
  unfold extWrite; split
  · exact ⟨_, rfl, fun h => Memory.wf_write h a v⟩
  · exact ⟨_, rfl, id⟩

/-- Settles O46: a reset meets the invariant afresh, a command keeps it by its frame, and the other steps touch only M or the record. -/
theorem stepKeepsTheInvariant : Obligations.StepKeepsTheInvariant := by
  intro s t hs h
  rcases step_cases h with ⟨d, rest, -, rfl⟩ | ⟨-, ⟨-, rfl⟩ | ⟨a, v, rest, -, rfl⟩ | ⟨w, rest, why, -, -, rfl⟩ |
    ⟨w, rest, i, u, -, -, hexec, rfl⟩⟩
  · exact ⟨resetMeetsTheInvariant.2.2 d _, rfl⟩
  · exact ⟨{ hs with }, rfl⟩
  · obtain ⟨m, heq, hm⟩ := extWrite_eq a v { s with inputs := rest }
    rw [heq]
    exact ⟨{ hs with memWf := hm hs.memWf }, rfl⟩
  · refine ⟨{ hs with recordOk := FaultRecord.consistent_raise hs.recordOk _ _, contentionRecorded := fun hc hp => ?_ }, rfl⟩
    exact (FaultRecord.raise_busContention (by decide)).trans (hs.contentionRecorded hc hp)
  · exact ⟨exec_inv hs hexec, (exec_frame hexec).params⟩

end Sys2Proof.Machine
end

section
/-! PROOFS of the statements of 20_memory.md: what every command commits and stores from pins that rest, the reactions of the SRAM at one
primitive, who drives the data bus, that M steers nothing, the causes of a change of a cell, and the read-after-write law. -/

namespace Sys2Proof.Machine

/-! ### One primitive and the SRAM, in every state -/

/-- Whether a cell is lost is a matter of the pins and of AL (rule R38). -/
theorem cellLost_congr (s : State) {t u : State} (hp : t.pins = u.pins) (hr : t.regs = u.regs) : cellLost s t = cellLost s u := by
  unfold cellLost State.addressPins; rw [hp, hr]

theorem cellLost_runPrim (w : Word) (s : State) (p : Prim) :
    cellLost s (runPrim w s p) = cellLost s { s with pins := p.pinsAfter s, regs := p.regsAfter s } := by
  obtain ⟨-, -, hpins, hregs, -⟩ := runPrim_frame w s p
  exact cellLost_congr s hpins hregs

/-- A primitive that moves WE_n moves no serial clock, so AL stays (rules R12, R61). -/
theorem regsAfter_al_of_weN {p : Prim} {s : State} (h : (p.onPins s.pins).weN ≠ s.pins.weN) : (p.regsAfter s).al = s.regs.al := by
  refine regsAfter_al_hold ?_
  cases p with
  | drive q v =>
    cases q with
    | rclk => exact absurd rfl h
    | ser | sclk | oeN | csN => simp [Prim.onPins]
    | weN => simp only [Prim.onPins]; split <;> simp
  | driveWeHigh | releaseWe | setDir | driveData | settle => simp [Prim.onPins]

theorem rises_iff (u v : Level) : rises u v = true ↔ u = .low ∧ v = .high := by simp [rises]

/-- Where no cell is lost, a strobe ends exactly at a rising edge of WE_n while CS_n = 0: the other end, CS_n rising while WE_n = 0, loses
the cell (rules R37, R38). -/
theorem strobeEnds_iff {s t : State} (hl : cellLost s t = false) :
    strobeEnds s.pins t.pins = true ↔ s.pins.level .weN = .low ∧ t.pins.level .weN = .high ∧ t.pins.csN = false := by
  simp only [cellLost, Bool.or_eq_false_iff] at hl
  obtain ⟨⟨-, hcs⟩, -⟩ := hl
  rw [strobeEnds, hcs]
  simp [risingEdge, rises_iff, and_assoc]

/-- The SRAM's reaction at the end of a strobe writes at most the cell at AL (rule R37). -/
theorem commitReaction_mem (b s : State) :
    (commitReaction b s).mem = s.mem ∨ (commitReaction b s).mem = s.mem.write s.regs.al b.bus := by
  unfold commitReaction; split
  · exact .inr rfl
  · exact .inl rfl

theorem commitReaction_draws_le {b s : State} (h : s.draws = b.draws) : s.draws ≤ (commitReaction b s).draws := by
  unfold commitReaction; split
  · rw [h, afterBus_eq]; split <;> simp
  · exact le_rfl

/-- The state after a primitive at which a condition of rule R38 holds: M[AL] is a draw, over what a commit at that primitive put there. -/
theorem runPrim_lost (w : Word) (s : State) (p : Prim) (hl : cellLost s (runPrim w s p) = true) :
    ∃ k m, s.draws ≤ k ∧ k < (runPrim w s p).draws ∧ (m = s.mem ∨ m = s.mem.write (p.regsAfter s).al s.bus) ∧
      (runPrim w s p).mem = m.write (p.regsAfter s).al (Config.freeByte k) := by
  obtain ⟨tr, h⟩ := logChanges_eq s (p.apply s)
  rw [cellLost_runPrim] at hl
  rw [runPrim, reactions, h, contentionCheck_mem, contentionCheck_draws]
  have hp : (serialReaction s.pins { p.apply s with trace := tr }).pins = p.pinsAfter s := rfl
  have hr : (serialReaction s.pins { p.apply s with trace := tr }).regs = p.regsAfter s := rfl
  have hm : (serialReaction s.pins { p.apply s with trace := tr }).mem = s.mem := rfl
  have hd : (serialReaction s.pins { p.apply s with trace := tr }).draws = s.draws := rfl
  generalize serialReaction s.pins { p.apply s with trace := tr } = v at *
  obtain ⟨-, -, hcp, hcr, -⟩ := commitReaction_frame s v
  have hlost := (cellLost_congr s (t := commitReaction s v) (u := { s with pins := p.pinsAfter s, regs := p.regsAfter s })
    (hcp.trans hp) (hcr.trans hr)).trans hl
  rw [lostReaction, if_pos hlost]
  refine ⟨(commitReaction s v).draws, (commitReaction s v).mem, hd ▸ commitReaction_draws_le hd, Nat.lt_succ_self _,
    hm ▸ hr ▸ commitReaction_mem s v, ?_⟩
  rw [hcr, hr]; rfl

/-- Settles O10: the state after a primitive that ends a strobe, after one that ends none, and after one that loses the cell. -/
theorem strobeEndCommitsTheBus : Obligations.StrobeEndCommitsTheBus := by
  intro w s p
  obtain ⟨-, -, hpins, hregs, -⟩ := runPrim_frame w s p
  refine ⟨fun hl hlow hhigh hcs => ?_, fun hl hno => ?_, fun hl hwf => ?_⟩
  · have hends := (strobeEnds_iff hl).mpr ⟨hlow, hhigh, hcs⟩
    rw [hpins] at hends hhigh
    change s.pins.weN = .low at hlow
    change (p.onPins s.pins).weN = .high at hhigh
    obtain ⟨tr, hrun⟩ := runPrim_commit w s p hends (cellLost_runPrim w s p ▸ hl)
    rw [hrun, regsAfter_al_of_weN (by rw [hlow, hhigh]; decide)]
    exact ⟨rfl, by simp [Pins.sramDrives, hlow]⟩
  · have hends : strobeEnds s.pins (p.onPins s.pins) = false := by
      rw [← hpins, ← Bool.not_eq_true, strobeEnds_iff hl]; exact hno
    obtain ⟨tr, hrun⟩ := runPrim_quiet w s p hends (cellLost_runPrim w s p ▸ hl)
    rw [hrun]
  · obtain ⟨k, m, hk, hk', hm, hmem⟩ := runPrim_lost w s p hl
    obtain ⟨hmwf, hother⟩ : m.wf = true ∧ ∀ x : Addr, x ≠ (p.regsAfter s).al → m.read x = s.mem.read x := by
      rcases hm with rfl | rfl
      · exact ⟨hwf, fun _ _ => rfl⟩
      · exact ⟨Memory.wf_write hwf _ _, fun x hx => Memory.read_write_other hwf hx.symm _⟩
    rw [hmem, hregs]
    exact ⟨⟨k, hk, hk', Memory.read_write_same hmwf _ _⟩,
      fun x hx => (Memory.read_write_other hmwf hx.symm _).trans (hother x hx)⟩

/-! ### The data bus and its contention -/

/-- The check of rule R40 that ends the reactions finds contention that holds. -/
theorem reactions_contention_logged {w : Word} {b s : State} (h : (reactions w b s).pins.contended = true) :
    (reactions w b s).trace.head? = some .contention := by
  rw [reactions, contentionCheck_pins] at h
  rw [reactions, contentionCheck_trace, if_pos h]
  rfl

theorem driven_contention_logged {i : Instr} {s : State} (h : (s.driven i).pins.contended = true) :
    (s.driven i).trace.head? = some .contention := by
  rw [State.driven, ← List.dropLast_concat_getLast (commandSeq_ne_nil i)] at h ⊢
  exact runPrims_contention_logged _ _ _ _ h

/-- Settles O29: the last check is that of the last primitive or of `SampleBus()`; a draw and a response leave the pins and the trace. -/
theorem contentionAtTheEndIsFound : Obligations.ContentionAtTheEndIsFound := by
  intro s t i h hc
  refine ⟨?_, exec_contentionRecorded h hc⟩
  rcases exec_cases h with ⟨-, rfl⟩ | ⟨-, v, u, rfl, rfl | rfl | rfl⟩
  · exact driven_contention_logged hc
  · exact driven_contention_logged hc
  · exact reactions_contention_logged hc
  · exact reactions_contention_logged hc

/-- Settles O12: the four cases of rule R39 are the two drivers' truth values. -/
theorem busResolvesByItsDrivers : Obligations.BusResolvesByItsDrivers := by
  intro s
  have hdir : s.pins.controllerDrives = true ↔ s.pins.dir = .output := by simp [Pins.controllerDrives]
  refine ⟨by simp [Pins.sramDrives, Pins.level, and_assoc], fun hd hsram => ?_, fun hd hsram => ?_, fun hboth => ?_⟩
  · have hctrl := hdir.mpr hd
    simp [State.bus, State.afterBus, Pins.busFloats, hctrl, hsram]
  · have hctrl : s.pins.controllerDrives = false := by simp [Pins.controllerDrives, hd]
    simp [State.bus, State.afterBus, Pins.busFloats, hctrl, hsram]
  · have hsame : s.pins.controllerDrives = s.pins.sramDrives := Bool.eq_iff_iff.mpr (hdir.trans hboth)
    cases hsram : s.pins.sramDrives <;>
      simp [State.bus, State.afterBus, Pins.busFloats, hsame, hsram, State.nextDraw, State.useDraw]

/-! ### What a command does to M and puts on the trace, from pins that rest -/

/-- From pins that rest every moment of a command but WRITE's strobe is calm. -/
theorem calmIn_commandSeq {i : Instr} (hi : ∀ a d, i ≠ .write a d) {p : Pins} (h : p.Resting) : CalmIn (commandSeq i) p := by
  cases i with
  | delay | sample => exact ⟨h.calm, h.calm⟩
  | select => exact calmIn_controlSeq (.inl rfl) h
  | deselect => exact calmIn_controlSeq (.inr (.inl rfl)) h
  | dirIn => exact calmIn_controlSeq (.inr (.inr (.inl rfl))) h
  | dirOut => exact calmIn_controlSeq (.inr (.inr (.inr rfl))) h
  | setAddr a oe => exact setAddress_calm a oe p h.sclkLow h.calm
  | read a =>
    have hc := setAddress_calm a true p h.sclkLow h.calm
    refine calmIn_append hc ?_
    rw [setAddress_pins _ _ _ h.sclkLow]
    exact ⟨⟨h.calm.1, h.calm.2⟩, ⟨h.calm.1, h.calm.2⟩⟩
  | write a d => exact absurd rfl (hi a d)

/-- What a command commits from pins that rest: a WRITE while Selected commits what is on the bus at the end of its strobe, its byte or a
draw; nothing else commits (rules R37, R43, R82). -/
def commandCommits : Instr → State → List (Addr × Byte)
  | .write a d, s => if s.pins.selected then [(a, if s.pins.dir = .output then d else s.nextDraw)] else []
  | .delay, _ | .select, _ | .deselect, _ | .dirIn, _ | .dirOut, _ | .setAddr _ _, _ | .sample, _ | .read _, _ => []

theorem commandCommits_write (a : Addr) (d : Byte) (s : State) :
    commandCommits (.write a d) s =
      if s.pins.selected then [(a, if s.pins.dir = .output then d else s.nextDraw)] else [] := rfl

@[simp] theorem commandCommits_accept (i : Instr) (rest : List Input) (s : State) :
    commandCommits i (accept rest s) = commandCommits i s := by
  cases i <;> rfl

theorem commandCommits_of_ne_write {i : Instr} (hi : ∀ a d, i ≠ .write a d) (s : State) : commandCommits i s = [] := by
  cases i with
  | write a d => exact absurd rfl (hi a d)
  | delay | select | deselect | dirIn | dirOut | setAddr | sample | read => rfl

/-- M after commits, the oldest first. -/
def Memory.store (m : Memory) (cs : List (Addr × Byte)) : Memory := cs.foldl (fun m c => m.write c.1 c.2) m

/-- The SRAM between two moments: `cs` was committed, in M and on the trace, and no cell was lost (rules R37, R38). -/
structure Commits (s t : State) (cs : List (Addr × Byte)) : Prop where
  mem : t.mem = s.mem.store cs
  logged : commits t.trace = commits s.trace ++ cs
  noLoss : lostEvents t.trace = lostEvents s.trace

theorem Commits.of_same {s t : State} (hm : t.mem = s.mem) (hc : commits t.trace = commits s.trace)
    (hl : lostEvents t.trace = lostEvents s.trace) : Commits s t [] :=
  ⟨hm, by simpa using hc, hl⟩

theorem Commits.trans {s t u : State} {cs cs' : List (Addr × Byte)} (h : Commits s t cs) (h' : Commits t u cs') :
    Commits s u (cs ++ cs') where
  mem := by rw [h'.mem, h.mem, Memory.store, Memory.store, Memory.store, List.foldl_append]
  logged := by rw [h'.logged, h.logged, List.append_assoc]
  noLoss := h'.noLoss.trans h.noLoss

theorem runPrims_calm_commits (w : Word) (ps : List Prim) (s : State) (h : CalmIn ps s.pins) :
    Commits s (runPrims w ps s) [] := by
  refine .of_same ?_ (commits_runPrims_calm w ps s h) (lostEvents_runPrims_calm w ps s h)
  obtain ⟨tr, hrun⟩ := runPrims_calm w ps s h
  rw [hrun]

theorem sampleBusState_calm_commits (w : Word) (s : State) (h : s.pins.Calm) : Commits s (sampleBusState w s) [] := by
  refine .of_same ?_ (sampleBus_trace w s h).1 (sampleBus_trace w s h).2
  obtain ⟨tr, hbus⟩ := sampleBusState_calm w s h
  rw [hbus]

theorem driven_commits {i : Instr} (hi : ∀ a d, i ≠ .write a d) {s : State} (h : s.pins.Resting) :
    Commits s (s.driven i) [] :=
  { runPrims_calm_commits (encode i) _ (s.checked i) (calmIn_commandSeq hi h) with }

/-- A command but WRITE commits nothing from pins that rest. -/
theorem exec_commits_of_ne_write {i : Instr} (hi : ∀ a d, i ≠ .write a d) {s t : State} (hs : s.pins.Resting)
    (h : exec i s = .next t) : Commits s t [] := by
  have hdriven := driven_commits hi hs
  have hsampled : Commits s (sampleBusState (encode i) (s.driven i)) [] := by
    refine hdriven.trans (sampleBusState_calm_commits _ _ (Pins.Resting.calm ?_))
    rw [(driven_execFrame i s).pins, pinsAfter_commandSeq]
    exact commandPins_resting i hs
  rcases exec_cases h with ⟨-, rfl⟩ | ⟨-, v, u, rfl, rfl | rfl | rfl⟩
  · exact hdriven
  · exact { hdriven with }
  · exact { hsampled with }
  · exact { hsampled with }

/-- The strobe from pins that rest with OE_n = 1 (rules R20, R37, R82). -/
theorem strobe_commits (w : Word) {s : State} (hs : s.pins.Resting) (ho : s.pins.oeN = true) :
    Commits s (runPrims w strobeSeq s)
      (if s.pins.selected then [(s.regs.al, if s.pins.dir = .output then s.regs.dout else s.nextDraw)] else []) := by
  cases hcs : s.pins.csN with
  | false =>
    have hsel : s.pins.selected = true := by simp [Pins.selected, hcs, hs.wePaired.mpr hcs]
    obtain ⟨tr, hrun⟩ := strobe_selected w s hs hcs ho
    obtain ⟨hlost, hcommits, -⟩ := strobe_selected_trace w s hs hcs ho
    rw [hsel, if_pos rfl]
    exact ⟨by rw [hrun]; rfl, hcommits, hlost⟩
  | true =>
    have hsel : s.pins.selected = false := by simp [Pins.selected, hcs]
    obtain ⟨tr, hrun⟩ := strobe_deselected w s hs hcs
    obtain ⟨hlost, hcommits, -⟩ := strobe_deselected_trace w s hs hcs
    rw [hsel]
    exact .of_same (by rw [hrun]) hcommits hlost

/-- WRITE commits at the end of its strobe, and only there. -/
theorem exec_write_commits {a : Addr} {d : Byte} {s t : State} (hs : s.pins.Resting) (h : exec (.write a d) s = .next t) :
    Commits s t (commandCommits (.write a d) s) := by
  have hcalm : CalmIn (setAddress a false ++ [.driveData d, .settle]) s.pins := by
    refine calmIn_append (setAddress_calm a false _ hs.sclkLow hs.calm) ?_
    rw [setAddress_pins _ _ _ hs.sclkLow]
    exact ⟨⟨hs.calm.1, hs.calm.2⟩, ⟨hs.calm.1, hs.calm.2⟩, ⟨hs.calm.1, hs.calm.2⟩⟩
  rw [show exec (.write a d) s = execWrite a d s from rfl, execWrite_eq] at h
  injection h with h
  subst h
  set v := raiseFaultIf (decide (s.pins.dir = .input)) .directionMismatch (encode (.write a d)) _
  have hquiet := runPrims_calm_commits (encode (.write a d)) _ v hcalm
  obtain ⟨tr, hrun⟩ := writeAddressData_spec (encode (.write a d)) a d v hs
  generalize runPrims (encode (.write a d)) (setAddress a false ++ [.driveData d, .settle]) v = u at hquiet hrun ⊢
  have hrest : u.pins.Resting := by rw [hrun]; exact ⟨hs.wePaired, hs.weHigh, hs.sclkLow, hs.rclkLow⟩
  have hstrobe := strobe_commits (encode (.write a d)) hrest (by rw [hrun])
  have hcs : (if u.pins.selected then [(u.regs.al, if u.pins.dir = .output then u.regs.dout else u.nextDraw)] else []) =
      commandCommits (.write a d) s := by rw [hrun]; rfl
  rw [hcs] at hstrobe
  exact { hquiet.trans hstrobe with }

/-- What every command does to M and to the commits and lost cells of the trace, from pins that rest (rules R37, R38, R43). -/
theorem exec_commits {i : Instr} {s t : State} (hs : s.pins.Resting) (h : exec i s = .next t) :
    Commits s t (commandCommits i s) := by
  cases i with
  | write a d => exact exec_write_commits hs h
  | delay | select | deselect | dirIn | dirOut | setAddr | sample | read => exact exec_commits_of_ne_write (by simp) hs h

/-- Only the address of a WRITE, and only while Selected, is committed to. -/
theorem mem_commandCommits {i : Instr} {s : State} {c : Addr × Byte} (h : c ∈ commandCommits i s) :
    s.pins.selected = true ∧ ∃ d, i = .write c.1 d := by
  cases i with
  | write a d =>
    rw [commandCommits_write] at h
    split at h
    next hsel => exact ⟨hsel, d, by rw [List.mem_singleton.mp h]⟩
    next => cases h
  | delay | select | deselect | dirIn | dirOut | setAddr | sample | read => cases h

/-- Commits elsewhere leave a cell. -/
theorem Memory.read_store_other {m : Memory} (hm : m.wf = true) {cs : List (Addr × Byte)} {x : Addr}
    (h : ∀ c ∈ cs, c.1 ≠ x) : (m.store cs).read x = m.read x := by
  induction cs generalizing m with
  | nil => rfl
  | cons c cs ih =>
    obtain ⟨hc, hcs⟩ := List.forall_mem_cons.mp h
    exact (ih (Memory.wf_write hm c.1 c.2) hcs).trans (Memory.read_write_other hm hc c.2)

/-- Settles O22: a command commits at most at its own address, and M is what was committed. -/
theorem onlyWriteStores : Obligations.OnlyWriteStores := by
  intro s t i hs hm h
  refine ⟨fun x hx => ?_, (exec_frame h).memWf hm⟩
  rw [(exec_commits hs h).mem]
  refine Memory.read_store_other hm fun c hc he => ?_
  obtain ⟨-, d, hi⟩ := mem_commandCommits hc
  exact hx d (he ▸ hi)

theorem lost_mem_lostEvents {a : Addr} {b : Byte} {tr : List Event} : Event.lost a b ∈ lostEvents tr ↔ Event.lost a b ∈ tr := by
  simp [lostEvents]

/-- Settles O30: no command adds to the lost cells of the trace. -/
theorem noCellIsEverLost : Obligations.NoCellIsEverLost := by
  intro s t i a b hs h hlost
  rwa [← lost_mem_lostEvents, (exec_commits hs h).noLoss, lost_mem_lostEvents] at hlost

/-- Settles O31: the commits on the trace are those of `commandCommits`. -/
theorem oneCommitPerWrite : Obligations.OneCommitPerWrite := by
  intro s t i hs h
  have hlog := (exec_commits hs h).logged
  refine ⟨?_, ?_, fun hi => ?_⟩
  · rintro a d rfl hsel
    rw [commandCommits_write, if_pos hsel] at hlog
    exact ⟨_, hlog, fun hd => if_pos hd⟩
  · rintro a d rfl hsel
    simpa [commandCommits_write, hsel] using hlog
  · simpa [commandCommits_of_ne_write hi] using hlog

theorem State.writeReady_iff (s : State) : s.writeReady = true ↔ s.pins.selected = true ∧ s.pins.dir = .output := by
  simp [State.writeReady, Pins.controllerDrives]

/-- A WRITE that is ready commits its byte (rules R82, R99). -/
theorem commandCommits_write_ready {s : State} (h : s.writeReady = true) (a : Addr) (d : Byte) :
    commandCommits (.write a d) s = [(a, d)] := by
  obtain ⟨hsel, hdir⟩ := s.writeReady_iff.mp h
  rw [commandCommits_write, if_pos hsel, if_pos hdir]

theorem exec_write_mem_ready {s t : State} {a : Addr} {d : Byte} (hs : s.pins.Resting) (hw : s.writeReady = true)
    (h : exec (.write a d) s = .next t) : t.mem = s.mem.write a d := by
  rw [(exec_commits hs h).mem, commandCommits_write_ready hw]; rfl

/-- A WRITE leaves the chip selected with DIR = Out, so the next one is ready too. -/
theorem exec_write_writeReady {s t : State} {a : Addr} {d : Byte} (h : exec (.write a d) s = .next t) :
    t.writeReady = s.writeReady := by
  rw [State.writeReady, exec_pins h]; rfl

/-- Settles O32: both writes are ready, and the later of two writes to one cell stands. -/
theorem secondWriteReplacesTheFirst : Obligations.SecondWriteReplacesTheFirst := by
  intro s t u a d e hs hm hw ht hu
  have htm := exec_write_mem_ready hs hw ht
  have hum : u.mem = s.mem.write a e := by
    have hpins := commandsLeaveThePinsResting s t _ hs ht
    rw [exec_write_mem_ready hpins ((exec_write_writeReady ht).trans hw) hu, htm, Memory.write_write hm]
  exact ⟨hum, fun hde => by rw [hum, htm, hde]⟩

/-! ### M steers nothing -/

/-- The state without M. Two states that agree here differ at most in M. -/
def State.noMem (s : State) : State := { s with mem := [] }

theorem noMem_eq_iff (s t : State) : s.noMem = t.noMem ↔ s = { t with mem := s.mem } := by
  constructor
  · intro h
    cases s; cases t
    simp_all [State.noMem]
  · intro h; rw [h]; rfl

/-- A strobe ends while the SRAM does not drive: WE_n is low before it, since no primitive moves both WE_n and CS_n (rules R36, R37). -/
theorem sramDrives_of_strobeEnds {p : Prim} {q : Pins} (h : strobeEnds q (p.onPins q) = true) : q.sramDrives = false := by
  have hlow : q.weN = .low := by
    simp only [strobeEnds, risingEdge, Bool.or_eq_true, Bool.and_eq_true, rises_iff, decide_eq_true_eq] at h
    rcases h with ⟨⟨hlow, -⟩, -⟩ | ⟨⟨hcs, hcs'⟩, hlow⟩
    · exact hlow
    · have hmoved : (p.onPins q).csN ≠ q.csN := fun he => by simp_all [Pins.level]
      cases p with
      | drive r v =>
        cases r with
        | csN => exact hlow
        | ser | sclk | rclk | oeN => exact absurd rfl hmoved
        | weN => exact absurd (by simp only [Prim.onPins]; split <;> rfl) hmoved
      | driveWeHigh | releaseWe | setDir | driveData | settle => exact absurd rfl hmoved
  simp [Pins.sramDrives, hlow]

/-- While the SRAM does not drive, the bus is no matter of M (rule R39). -/
theorem bus_noMem {s : State} (h : s.pins.sramDrives = false) : s.noMem.bus = s.bus := by
  have hp : s.noMem.pins = s.pins := rfl
  rw [State.bus, State.bus, hp, h]
  cases s.pins.controllerDrives <;> rfl

theorem afterBus_noMem (s : State) : s.noMem.afterBus = s.afterBus.noMem := by
  rw [afterBus_eq, afterBus_eq]; rfl

theorem commitReaction_noMem (b s : State) (h : strobeEnds b.pins s.pins = true → b.pins.sramDrives = false) :
    (commitReaction b.noMem s.noMem).noMem = (commitReaction b s).noMem := by
  have hends : strobeEnds b.noMem.pins s.noMem.pins = strobeEnds b.pins s.pins := rfl
  unfold commitReaction
  rw [hends]
  split
  next hstrobe => rw [bus_noMem (h hstrobe), afterBus_noMem]; rfl
  next => rfl

theorem lostReaction_noMem (b s : State) : (lostReaction b.noMem s.noMem).noMem = (lostReaction b s).noMem := by
  have hlost : cellLost b.noMem s.noMem = cellLost b s := rfl
  unfold lostReaction
  rw [hlost]
  split <;> rfl

/-- The reactions see M nowhere: the byte of a commit comes from the bus while the SRAM does not drive it. -/
theorem reactions_noMem (w : Word) (b s : State) (h : strobeEnds b.pins s.pins = true → b.pins.sramDrives = false) :
    (reactions w b.noMem s.noMem).noMem = (reactions w b s).noMem := by
  have hcommit := commitReaction_noMem b (serialReaction b.pins s) h
  calc (reactions w b.noMem s.noMem).noMem
      = contentionCheck w (lostReaction b.noMem (commitReaction b.noMem (serialReaction b.pins s).noMem)).noMem := rfl
    _ = contentionCheck w (lostReaction b.noMem (commitReaction b.noMem (serialReaction b.pins s).noMem).noMem).noMem := by
        rw [← lostReaction_noMem b.noMem (commitReaction b.noMem _)]; rfl
    _ = contentionCheck w (lostReaction b (commitReaction b (serialReaction b.pins s))).noMem := by
        rw [hcommit, lostReaction_noMem]
    _ = (reactions w b s).noMem := rfl

theorem runPrim_noMem (w : Word) (s : State) (p : Prim) : (runPrim w s.noMem p).noMem = (runPrim w s p).noMem :=
  reactions_noMem w s (logChanges s (p.apply s)) fun h => sramDrives_of_strobeEnds (p := p) (logged_pins p s ▸ h)

theorem runPrims_noMem (w : Word) (ps : List Prim) (s : State) : (runPrims w ps s.noMem).noMem = (runPrims w ps s).noMem := by
  induction ps generalizing s with
  | nil => rfl
  | cons p ps ih =>
    change (runPrims w ps (runPrim w s.noMem p)).noMem = (runPrims w ps (runPrim w s p)).noMem
    rw [← ih, runPrim_noMem, ih]

theorem sampleBusState_noMem (w : Word) (s : State) : (sampleBusState w s.noMem).noMem = (sampleBusState w s).noMem := by
  have hno : strobeEnds s.pins s.afterBus.pins = false := by simp [strobeEnds]
  rw [sampleBusState, afterBus_noMem]
  exact reactions_noMem w s s.afterBus fun h => absurd h (by rw [hno]; decide)

/-- The state a command leaves but for its response: SAMPLE and READ sample the bus, draw, or both (rules R74, R81). -/
def State.unanswered (i : Instr) (s : State) : State :=
  match i with
  | .sample => if s.pins.controllerDrives then (s.driven i).useDraw else sampleBusState (encode i) (s.driven i)
  | .read _ =>
    if !s.pins.selected || s.pins.controllerDrives then (sampleBusState (encode i) (s.driven i)).useDraw
    else sampleBusState (encode i) (s.driven i)
  | .delay | .select | .deselect | .dirIn | .dirOut | .setAddr _ _ | .write _ _ => s.driven i

theorem exec_unanswered {i : Instr} {s t : State} (h : exec i s = .next t) :
    (¬ Answers i ∧ t = s.unanswered i) ∨ (Answers i ∧ ∃ v, t = respond v (s.unanswered i)) := by
  cases i with
  | delay | select | deselect | dirIn | dirOut | setAddr a oe | write a d =>
    injection h with h
    exact .inl ⟨by simp [Answers], h.symm⟩
  | sample =>
    injection h with h
    subst h
    refine .inr ⟨.inl rfl, ?_⟩
    dsimp only [State.unanswered]
    split <;> exact ⟨_, rfl⟩
  | read a =>
    injection h with h
    subst h
    refine .inr ⟨.inr ⟨a, rfl⟩, ?_⟩
    dsimp only [State.unanswered]
    split <;> exact ⟨_, rfl⟩

theorem driven_noMem (i : Instr) (s : State) : (s.noMem.driven i).noMem = (s.driven i).noMem :=
  runPrims_noMem (encode i) (commandSeq i) (s.checked i)

theorem sampled_noMem (i : Instr) (s : State) :
    (sampleBusState (encode i) (s.noMem.driven i)).noMem = (sampleBusState (encode i) (s.driven i)).noMem := by
  rw [← sampleBusState_noMem, driven_noMem, sampleBusState_noMem]

theorem useDraw_noMem (s : State) : s.useDraw.noMem = s.noMem.useDraw := rfl

theorem unanswered_noMem (i : Instr) (s : State) : (s.noMem.unanswered i).noMem = (s.unanswered i).noMem := by
  have hp : s.noMem.pins = s.pins := rfl
  cases i with
  | delay | select | deselect | dirIn | dirOut | setAddr | write => exact driven_noMem _ s
  | sample =>
    simp only [State.unanswered, hp]
    split
    · rw [useDraw_noMem, useDraw_noMem, driven_noMem]
    · exact sampled_noMem _ s
  | read a =>
    simp only [State.unanswered, hp]
    split
    · rw [useDraw_noMem, useDraw_noMem, sampled_noMem]
    · exact sampled_noMem _ s

/-- Another M before a command is another M after it, before the response, and nothing else. -/
theorem unanswered_withMem (i : Instr) (s : State) (m : Memory) :
    ∃ m', State.unanswered i { s with mem := m } = { s.unanswered i with mem := m' } := by
  have hsame : (State.unanswered i { s with mem := m }).noMem = (s.unanswered i).noMem :=
    (unanswered_noMem i { s with mem := m }).symm.trans (unanswered_noMem i s)
  exact ⟨_, (noMem_eq_iff _ _).mp hsame⟩

/-- Settles O34: both runs leave the same state but for M and the byte of the response. -/
theorem memoryNeverSteersTheBlock : Obligations.MemoryNeverSteersTheBlock := by
  intro s t t' m i h h'
  obtain ⟨m', hm'⟩ := unanswered_withMem i s m
  rcases exec_unanswered h with ⟨hi, rfl⟩ | ⟨hi, v, rfl⟩ <;> rcases exec_unanswered h' with ⟨hi', rfl⟩ | ⟨hi', v', rfl⟩
  · rw [hm']
    exact ⟨rfl, rfl, rfl, rfl, rfl, rfl, rfl, rfl, rfl⟩
  · exact absurd hi' hi
  · exact absurd hi hi'
  · rw [hm']
    exact ⟨rfl, rfl, rfl, rfl, rfl, by simp, rfl, rfl, rfl⟩

/-! ### Steps -/

theorem State.externalMasterMayStep_iff (s : State) :
    s.externalMasterMayStep = true ↔ s.params.externalMaster = true ∧ s.pins.csN = true ∧ s.seq = .idle := by
  simp [State.externalMasterMayStep, State.cmdReady, and_assoc]

theorem step_extWrite {s : State} {a : Addr} {v : Byte} {rest : List Input} (hq : s.seq = .idle)
    (hin : s.inputs = .extWrite a v :: rest) : step s = .next (extWrite a v { s with inputs := rest }) := by
  simp only [step, hin, hq]

/-- Settles O44: with SEQ = Idle the step is `ExtWrite`, which asks for EXTERNAL_MASTER and CS_n = 1. -/
theorem externalMasterStepsOnlyWhileDeselected : Obligations.ExternalMasterStepsOnlyWhileDeselected := by
  intro s a v rest hq hin
  rw [step_extWrite hq hin]
  have hmay := State.externalMasterMayStep_iff { s with inputs := rest }
  refine ⟨fun hext hcs => ?_, fun hnot => ?_⟩
  · rw [extWrite, if_pos (hmay.mpr ⟨hext, hcs, hq⟩)]
  · rw [extWrite, if_neg fun h => ?_]
    obtain ⟨hext, hcs, -⟩ := hmay.mp h
    rcases hnot with hnot | hnot
    · exact absurd (hext.symm.trans hnot) (by decide)
    · exact absurd (hcs.symm.trans hnot) (by decide)

theorem step_waitForHost {s : State} (hq : s.seq = .idle) (hin : s.inputs = []) : step s = .next (waitForHost s) := by
  simp only [step, hin, hq]

theorem step_command {s : State} {w : Word} {rest : List Input} {i : Instr} (hq : s.seq = .idle)
    (hin : s.inputs = .command w :: rest) (hd : decode w = .instr i) : step s = complete (exec i (accept rest s)) := by
  simp only [step, hin, hq, runWord, hd]

/-- Decoding the word of an instruction gives the instruction back (rules R52 to R55). -/
theorem decode_encode (i : Instr) : decode (encode i) = .instr i := by
  rw [decode_fields]
  cases i <;> simp [encode]

/-- A step that takes the word of an instruction is that instruction, run from the acceptance to its completion (rule R79). -/
theorem step_encode {s t : State} {i : Instr} {rest : List Input} (hq : s.seq = .idle)
    (hin : s.inputs = .command (encode i) :: rest) (h : step s = .next t) :
    ∃ u, exec i (accept rest s) = .next u ∧ t = { u with seq := .idle } := by
  rw [step_command hq hin (decode_encode i)] at h
  cases hexec : exec i (accept rest s) with
  | next u => rw [hexec] at h; injection h with h; exact ⟨u, rfl, h.symm⟩
  | fault r => rw [hexec] at h; cases h
  | refused r => rw [hexec] at h; cases h

/-- What a step with an input that is no reset can do (rules R46, R56, R79). -/
theorem step_cons_cases {s t : State} {x : Input} {rest : List Input} (hin : s.inputs = x :: rest) (hx : ∀ d, x ≠ .reset d)
    (h : step s = .next t) :
    (∃ a v, x = .extWrite a v ∧ t = extWrite a v { s with inputs := rest }) ∨
    (∃ w why, x = .command w ∧ decode w = .illegal why ∧
      t = { s with inputs := rest, rspValid := false, record := s.record.raise .illegalCommand w }) ∨
    (∃ w i u, x = .command w ∧ decode w = .instr i ∧ exec i (accept rest s) = .next u ∧ t = { u with seq := .idle }) := by
  have hcons {y : Input} {rest' : List Input} (hin' : s.inputs = y :: rest') : x = y ∧ rest' = rest := by simp_all
  rcases step_cases h with ⟨d, rest', hin', -⟩ | ⟨-, ⟨hnil, -⟩ | ⟨a, v, rest', hin', ht⟩ | ⟨w, rest', why, hin', hd, ht⟩ |
    ⟨w, rest', i, u, hin', hd, hexec, ht⟩⟩
  · exact absurd (hcons hin').1 (hx d)
  · simp [hin] at hnil
  · obtain ⟨rfl, rfl⟩ := hcons hin'
    exact .inl ⟨a, v, rfl, ht⟩
  · obtain ⟨rfl, rfl⟩ := hcons hin'
    exact .inr (.inl ⟨w, why, rfl, hd, ht⟩)
  · obtain ⟨rfl, rfl⟩ := hcons hin'
    exact .inr (.inr ⟨w, i, u, rfl, hd, hexec, ht⟩)

/-- How such a step changes M, from a state of the invariant: by the external master's step, by what a command commits, or not at all
(rules R37, R46). -/
theorem step_mem_cases {s t : State} {x : Input} {rest : List Input} (hs : s.Inv) (hin : s.inputs = x :: rest)
    (hx : ∀ d, x ≠ .reset d) (h : step s = .next t) :
    (∃ a v, x = .extWrite a v ∧ s.params.externalMaster = true ∧ s.pins.csN = true ∧
      t.mem = s.mem.write a v ∧ commits t.trace = commits s.trace) ∨
    (∃ w i, x = .command w ∧ decode w = .instr i ∧ Commits s t (commandCommits i s)) ∨
    Commits s t [] := by
  rcases step_cons_cases hin hx h with ⟨a, v, rfl, rfl⟩ | ⟨w, why, -, -, rfl⟩ | ⟨w, i, u, rfl, hd, hexec, rfl⟩
  · unfold extWrite
    split
    next hmay =>
      obtain ⟨hext, hcs, -⟩ := (State.externalMasterMayStep_iff _).mp hmay
      exact .inl ⟨a, v, rfl, hext, hcs, rfl, rfl⟩
    next => exact .inr (.inr (.of_same rfl rfl rfl))
  · exact .inr (.inr (.of_same rfl rfl rfl))
  · have hc := exec_commits (s := accept rest s) hs.resting hexec
    rw [commandCommits_accept] at hc
    exact .inr (.inl ⟨w, i, rfl, hd, { hc with }⟩)

/-- A cell that commits have changed was committed to. -/
theorem Commits.exists_mem {s t : State} {cs : List (Addr × Byte)} (h : Commits s t cs) (hm : s.mem.wf = true) {x : Addr}
    (hx : t.mem.read x ≠ s.mem.read x) : ∃ c ∈ cs, c.1 = x := by
  by_contra hno
  refine hx ?_
  rw [h.mem]
  exact Memory.read_store_other hm fun c hc he => hno ⟨c, hc, he⟩

/-- Settles O48: the commits of a command are those of a WRITE while Selected, to its own address. -/
theorem cellsChangeOnlyByTheirCauses : Obligations.CellsChangeOnlyByTheirCauses := by
  intro s t x hs h hx
  obtain hin | ⟨y, rest, hin⟩ : s.inputs = [] ∨ ∃ y rest, s.inputs = y :: rest := by
    cases s.inputs <;> simp
  · rw [step_waitForHost hs.idle hin] at h
    injection h with h
    exact absurd (h ▸ rfl) hx
  by_cases hreset : ∃ d, y = .reset d
  · obtain ⟨d, rfl⟩ := hreset
    exact .inr (.inr ⟨d, rest, hin⟩)
  rcases step_mem_cases hs hin (not_exists.mp hreset) h with ⟨a, v, rfl, hext, hcs, hmem, -⟩ | ⟨w, i, rfl, hd, hc⟩ | hc
  · have hax : a = x := by
      by_contra hne
      exact hx (hmem ▸ Memory.read_write_other hs.memWf hne v)
    exact .inr (.inl ⟨v, rest, hax ▸ hin, hext, hcs⟩)
  · obtain ⟨c, hmem, rfl⟩ := hc.exists_mem hs.memWf hx
    obtain ⟨hsel, d, rfl⟩ := mem_commandCommits hmem
    exact .inl ⟨w, d, rest, hin, hd, hsel⟩
  · obtain ⟨c, hmem, -⟩ := hc.exists_mem hs.memWf hx
    cases hmem

/-! ### Read after write -/

theorem step_inputs {s t : State} {x : Input} {rest : List Input} (hin : s.inputs = x :: rest) (hx : ∀ d, x ≠ .reset d)
    (h : step s = .next t) : t.inputs = rest := by
  rcases step_cons_cases hin hx h with ⟨a, v, -, rfl⟩ | ⟨w, why, -, -, rfl⟩ | ⟨w, i, u, -, -, hexec, rfl⟩
  · rw [extWrite]; split <;> rfl
  · rfl
  · exact (exec_frame hexec).inputs

/-- Only DESELECT and a reset raise CS_n (rules R21, R77). -/
theorem step_keeps_csN_low {s t : State} {x : Input} {rest : List Input} (hin : s.inputs = x :: rest) (hx : ∀ d, x ≠ .reset d)
    (hdes : ∀ w, x = .command w → decode w ≠ .instr .deselect) (h : step s = .next t) (hcs : s.pins.csN = false) :
    t.pins.csN = false := by
  rcases step_cons_cases hin hx h with ⟨a, v, -, rfl⟩ | ⟨w, why, -, -, rfl⟩ | ⟨w, i, u, rfl, hd, hexec, rfl⟩
  · rw [extWrite]; split <;> exact hcs
  · exact hcs
  · change u.pins.csN = false
    rw [exec_pins hexec]
    cases i with
    | deselect => exact absurd hd (hdes w rfl)
    | select => rfl
    | delay | dirIn | dirOut | setAddr | sample | read | write => exact hcs

/-- What keeps the external master from cell `a` while the inputs `mid` are taken: it does not ask for the cell, it does not exist, or the
chip stays selected (rules R45, R46). -/
def KeptFromMaster (a : Addr) (s : State) (mid : List Input) : Prop :=
  (∀ v, Input.extWrite a v ∉ mid) ∨ s.params.externalMaster = false ∨
    s.pins.csN = false ∧ ∀ w, Input.command w ∈ mid → decode w ≠ .instr .deselect

theorem KeptFromMaster.step {a : Addr} {s t : State} {x : Input} {mid rest : List Input} (hk : KeptFromMaster a s (x :: mid))
    (hs : s.Inv) (hin : s.inputs = x :: rest) (hx : ∀ d, x ≠ .reset d) (h : step s = .next t) : KeptFromMaster a t mid := by
  rcases hk with hno | hext | ⟨hcs, hdes⟩
  · exact .inl fun v hv => hno v (List.mem_cons_of_mem x hv)
  · exact .inr (.inl ((stepKeepsTheInvariant s t hs h).2 ▸ hext))
  · refine .inr (.inr ⟨?_, fun w hw => hdes w (List.mem_cons_of_mem x hw)⟩)
    exact step_keeps_csN_low hin hx (fun w hw => hdes w (hw ▸ List.mem_cons_self)) h hcs

theorem KeptFromMaster.false_of_extWrite {a : Addr} {v : Byte} {s : State} {mid : List Input}
    (hk : KeptFromMaster a s (.extWrite a v :: mid)) (hext : s.params.externalMaster = true) (hcs : s.pins.csN = true) : False := by
  rcases hk with hno | hext' | ⟨hcs', -⟩
  · exact hno v List.mem_cons_self
  · simp [hext'] at hext
  · simp [hcs'] at hcs

/-- From `s` to `t` the trace gained commits, and cell `a` stayed if none of them names it. -/
def KeepsUncommitted (a : Addr) (s t : State) : Prop :=
  ∃ cs, commits t.trace = commits s.trace ++ cs ∧ ((∀ c ∈ cs, c.1 ≠ a) → t.mem.read a = s.mem.read a)

theorem KeepsUncommitted.refl (a : Addr) (s : State) : KeepsUncommitted a s s := ⟨[], (List.append_nil _).symm, fun _ => rfl⟩

theorem KeepsUncommitted.trans {a : Addr} {s t u : State} (h : KeepsUncommitted a s t) (h' : KeepsUncommitted a t u) :
    KeepsUncommitted a s u := by
  obtain ⟨cs, hlog, hcell⟩ := h
  obtain ⟨cs', hlog', hcell'⟩ := h'
  refine ⟨cs ++ cs', by rw [hlog', hlog, List.append_assoc], fun hno => ?_⟩
  obtain ⟨hno₁, hno₂⟩ := List.forall_mem_append.mp hno
  exact (hcell' hno₂).trans (hcell hno₁)

theorem Commits.keepsUncommitted {s t : State} {cs : List (Addr × Byte)} (h : Commits s t cs) (hm : s.mem.wf = true) (a : Addr) :
    KeepsUncommitted a s t :=
  ⟨cs, h.logged, fun hno => h.mem ▸ Memory.read_store_other hm hno⟩

theorem step_keepsUncommitted {a : Addr} {s t : State} {x : Input} {mid rest : List Input} (hs : s.Inv)
    (hin : s.inputs = x :: rest) (hx : ∀ d, x ≠ .reset d) (hk : KeptFromMaster a s (x :: mid)) (h : step s = .next t) :
    KeepsUncommitted a s t := by
  rcases step_mem_cases hs hin hx h with ⟨a', v, rfl, hext, hcs, hmem, hlog⟩ | ⟨w, i, -, -, hc⟩ | hc
  · refine ⟨[], by rw [hlog, List.append_nil], fun _ => hmem ▸ Memory.read_write_other hs.memWf ?_ v⟩
    rintro rfl
    exact hk.false_of_extWrite hext hcs
  · exact hc.keepsUncommitted hs.memWf a
  · exact hc.keepsUncommitted hs.memWf a

/-- The steps that take a list of inputs with no reset. -/
theorem runSteps_keepsUncommitted {a : Addr} {mid rest : List Input} {s u : State} (hs : s.Inv) (hin : s.inputs = mid ++ rest)
    (hreset : ∀ d, Input.reset d ∉ mid) (hk : KeptFromMaster a s mid) (h : runSteps mid.length s = .next u) :
    u.Inv ∧ u.inputs = rest ∧ KeepsUncommitted a s u := by
  induction mid generalizing s with
  | nil =>
    injection h with h
    subst h
    exact ⟨hs, hin, .refl a s⟩
  | cons x mid ih =>
    obtain ⟨t, hstep, hrun⟩ := runSteps_succ.mp h
    have hx : ∀ d, x ≠ .reset d := fun d he => hreset d (he ▸ List.mem_cons_self)
    obtain ⟨hu, hrest, hkeeps⟩ := ih (stepKeepsTheInvariant s t hs hstep).1 (step_inputs hin hx hstep)
      (fun d hd => hreset d (List.mem_cons_of_mem x hd)) (hk.step hs hin hx hstep) hrun
    exact ⟨hu, hrest, (step_keepsUncommitted hs hin hx hk hstep).trans hkeeps⟩

/-- One step more, at the end. -/
theorem runSteps_snoc {n : Nat} {s u t : State} (h : runSteps n s = .next u) (h' : step u = .next t) :
    runSteps (n + 1) s = .next t :=
  (runSteps_add (n := 1) h).trans (runSteps_succ.mpr ⟨t, h', rfl⟩)

theorem State.readReady_iff (s : State) : s.readReady = true ↔ s.pins.selected = true ∧ s.pins.dir = .input := by
  cases hd : s.pins.dir <;> simp [State.readReady, Pins.controllerDrives, hd]

theorem Pins.csN_of_selected {p : Pins} (h : p.selected = true) : p.csN = false := by
  simp_all [Pins.selected]

/-- A sample at a calm moment while the SRAM alone drives the bus answers with M[AL] (rules R39, R69). -/
theorem respondSample_of_sramDrives (w : Word) {s : State} (hcalm : s.pins.Calm) (hctrl : s.pins.controllerDrives = false)
    (hsram : s.pins.sramDrives = true) :
    ∃ tr, respondSample w s =
      { s with
        regs := { s.regs with rdata := s.mem.read s.regs.al }
        rspValid := true
        responses := s.responses ++ [s.mem.read s.regs.al]
        trace := tr } := by
  obtain ⟨tr, hbus⟩ := sampleBusState_calm w s hcalm
  refine ⟨tr, ?_⟩
  rw [respondSample, hbus]
  simp [respond, sampleBusValue, State.bus, State.contentionRecord, Pins.contended, Pins.busFloats, hctrl, hsram]

@[simp] theorem raiseFaultIf_false (c : FaultCode) (w : Word) (s : State) : raiseFaultIf false c w s = s := rfl

/-- A READ that is ready records nothing, drives its address and samples the bus (rule R81). -/
theorem exec_read_of_ready {s : State} (a : Addr) (hr : s.readReady = true) :
    exec (.read a) s = .next (respondSample (encode (.read a)) (runPrims (encode (.read a)) (readSeq a) s)) := by
  obtain ⟨hsel, hctrl⟩ : s.pins.selected = true ∧ s.pins.controllerDrives = false := by simpa [State.readReady] using hr
  simp only [exec, execRead, hsel, hctrl, Bool.not_true, Bool.or_self, raiseFaultIf_false, if_neg Bool.false_ne_true]

/-- A READ that is ready: the cell is the response, and nothing is recorded or drawn (rules R81, R99). -/
theorem exec_read_ready {s : State} (a : Addr) (hs : s.pins.Resting) (hr : s.readReady = true) :
    ∃ tr, exec (.read a) s = .next
      { s with
        pins := { s.pins with ser := a.getLsbD 0, oeN := false }
        regs := { s.regs with sr := a, al := a, rdata := s.mem.read a }
        rspValid := true
        responses := s.responses ++ [s.mem.read a]
        trace := tr } := by
  obtain ⟨hsel, hdir⟩ := s.readReady_iff.mp hr
  have hrecord : s.recordAfter (decide (s.pins.dir = .output) && s.pins.selected) (encode (.read a)) = s.record := by
    simp [State.recordAfter, hdir]
  obtain ⟨tr, hseq⟩ := readSeq_spec (encode (.read a)) a s hs
  rw [exec_read_of_ready a hr, hseq, hrecord]
  have hrest : Pins.Resting { s.pins with ser := a.getLsbD 0, oeN := false } := ⟨hs.wePaired, hs.weHigh, hs.sclkLow, hs.rclkLow⟩
  have hsram : Pins.sramDrives { s.pins with ser := a.getLsbD 0, oeN := false } = true := by
    rw [hrest.sramDrives_eq]; exact congrArg (· && true) hsel
  obtain ⟨tr', hanswer⟩ := respondSample_of_sramDrives (encode (.read a))
    (s := { s with pins := { s.pins with ser := a.getLsbD 0, oeN := false }, regs := { s.regs with sr := a, al := a }, trace := tr })
    hrest.calm (by simp [Pins.controllerDrives, hdir]) hsram
  exact ⟨tr', congrArg Host.Outcome.next hanswer⟩

/-- A step that takes a WRITE that is ready leaves its byte in the cell and commits it (rules R37, R82). -/
theorem step_write_ready {s t : State} {a : Addr} {b : Byte} {rest : List Input} (hs : s.Inv) (hw : s.writeReady = true)
    (hin : s.inputs = .command (encode (.write a b)) :: rest) (h : step s = .next t) :
    t.mem.read a = b ∧ commits t.trace = commits s.trace ++ [(a, b)] := by
  obtain ⟨u, hexec, rfl⟩ := step_encode hs.idle hin h
  have hc := exec_commits (s := accept rest s) hs.resting hexec
  rw [commandCommits_write_ready (s := accept rest s) hw] at hc
  exact ⟨(congrArg (Memory.read · a) hc.mem).trans (Memory.read_write_same hs.memWf a b), hc.logged⟩

/-- Settles O49: the WRITE leaves its byte in the cell, the inputs between leave the cell, and the READ answers with it. -/
theorem readAfterWriteReturnsTheByte : Obligations.ReadAfterWriteReturnsTheByte := by
  intro s u a b mid rest between hs hw hin hreset hmaster hrun hr hlog hbetween
  obtain ⟨t, hstep, hrun'⟩ := runSteps_succ.mp hrun
  have hk : KeptFromMaster a s (.command (encode (.write a b)) :: mid) := by
    rcases hmaster with hno | hext | hdes
    · exact .inl (by simpa using hno)
    · exact .inr (.inl hext)
    · refine .inr (.inr ⟨Pins.csN_of_selected (s.writeReady_iff.mp hw).1, ?_⟩)
      simpa [decode_encode] using hdes
  have hx : ∀ d, Input.command (encode (.write a b)) ≠ .reset d := by simp
  obtain ⟨hu, hrest, cs, hlog', hcell⟩ := runSteps_keepsUncommitted (stepKeepsTheInvariant s t hs hstep).1
    (step_inputs hin hx hstep) hreset (hk.step hs hin hx hstep) hrun'
  obtain ⟨hwritten, hcommit⟩ := step_write_ready hs hw hin hstep
  have hbetween' : cs = between := by simpa [hlog, hcommit] using hlog'.symm
  have hub : u.mem.read a = b := (hcell (hbetween' ▸ hbetween)).trans hwritten
  obtain ⟨tr, hread⟩ := exec_read_ready (s := accept rest u) a hu.resting hr
  have hlast := step_command hu.idle hrest (decode_encode _)
  rw [hread, complete] at hlast
  exact ⟨_, runSteps_snoc hrun hlast, hub, rfl, congrArg (fun v => u.responses ++ [v]) hub, rfl⟩

end Sys2Proof.Machine
end

section
/-! PROOFS of the statements of 30_encoding.md: the opcode map row by row, Illegal words, the assembler, and that a pseudo-command records no
fault. -/

namespace Sys2Proof.Machine

/-! ### The rows of the opcode map -/

/-- Settles O1: each command's word has its OP and operands in their fields, which is what the decoder reads. -/
theorem decodeOfEncodeIsIdentity : Obligations.DecodeOfEncodeIsIdentity :=
  fun i _ => decode_encode i

/-- A row fixes every field that its command does not use, so the word it matches is its command's (rules R54, R55). -/
theorem encode_build_of_hits {r : Row} (hr : r ∈ opcodeMap) {w : Word} (h : r.hits w = true) : encode (r.build w) = w := by
  have and15 (x : BitVec 4) : x &&& 15#4 = x := BitVec.and_allOnes
  have and7 (x : BitVec 3) : x &&& 7#3 = x := BitVec.and_allOnes
  have and255 (x : Byte) : x &&& 255#8 = x := BitVec.and_allOnes
  have and65535 (x : Addr) : x &&& 65535#16 = x := BitVec.and_allOnes
  rw [row_hits_iff_fields] at h
  rw [word_eq_iff_fields]
  simp only [opcodeMap, List.mem_cons, List.not_mem_nil, or_false] at hr
  rcases hr with rfl | rfl | rfl | rfl | rfl | rfl | rfl | rfl | rfl
  all_goals
    simp only [encode, fieldOp_assembleWord, fieldRsv_assembleWord, fieldF_assembleWord, fieldData_assembleWord,
      fieldAddr_assembleWord]
    simp [fieldOp, fieldRsv, fieldF, fieldData, fieldAddr, and15, and7, and255, and65535] at h ⊢
    simp [h]

/-- A word that decodes is matched by a row of the map, which builds the instruction (rule R55). -/
theorem exists_row_of_decode {w : Word} {i : Instr} (h : decode w = .instr i) :
    ∃ r ∈ opcodeMap, r.hits w = true ∧ r.build w = i := by
  unfold decode at h
  split at h
  next r hfind =>
    injection h with hbuild
    exact ⟨r, List.mem_of_find?_eq_some hfind, List.find?_some (p := fun r : Row => r.hits w) hfind, hbuild⟩
  next => cases h

/-- Settles O2: the row that matches the word determines each of its fields. -/
theorem encodeOfDecodeIsIdentity : Obligations.EncodeOfDecodeIsIdentity := by
  intro w i h
  obtain ⟨r, hr, hhits, rfl⟩ := exists_row_of_decode h
  exact encode_build_of_hits hr hhits

/-- Every mask covers OP, so a row matches only words with the row's OP. -/
theorem fieldOp_of_hits {r : Row} (hr : r ∈ opcodeMap) {w : Word} (h : r.hits w = true) : fieldOp r.value = fieldOp w := by
  have hmask : ∀ r ∈ opcodeMap, fieldOp r.mask = BitVec.allOnes 4 := by decide
  obtain ⟨hop, -⟩ := (row_hits_iff_fields r w).mp h
  rw [← hop, hmask r hr, BitVec.and_allOnes]

/-- Settles O3: the rows that match have the OP of the word, and no two rows have the same OP. -/
theorem eachWordHitsAtMostOneRow : Obligations.EachWordHitsAtMostOneRow := by
  intro w
  have hdistinct : (opcodeMap.map fun r => fieldOp r.value).Nodup := by decide
  have hsame : (opcodeMap.filter fun r => r.hits w).map (fun r => fieldOp r.value) =
      List.replicate (opcodeMap.filter fun r => r.hits w).length (fieldOp w) :=
    List.map_eq_replicate_iff.mpr fun r hr => fieldOp_of_hits (List.mem_filter.mp hr).1 (List.mem_filter.mp hr).2
  rw [← List.nodup_replicate (a := fieldOp w), ← hsame]
  exact hdistinct.sublist (List.filter_sublist.map _)

/-- Settles O5: each word evaluated. -/
theorem writtenOutWordsDecode : Obligations.WrittenOutWordsDecode := by
  refine ⟨?_, ?_, ?_, ?_, ?_, ?_, ?_, ?_⟩ <;> decide

/-! ### Illegal words -/

/-- Where a command needs `c` of its word, the word is Illegal exactly when `c` fails. -/
theorem exists_illegal_iff {c : Prop} [Decidable c] {i : Instr} {why' : IllegalWord} :
    (∃ why, (if c then .instr i else .illegal why') = Decoded.illegal why) ↔ ¬ c := by
  split <;> simp [*]

/-- Which words are Illegal, by their fields (rule R56). -/
theorem decode_illegal_iff (w : Word) : (∃ why, decode w = .illegal why) ↔
    9 ≤ (fieldOp w).toNat ∨ fieldRsv w ≠ 0#3 ∨
    (fieldF w = true ∧ (fieldOp w).toNat ≠ 5) ∨
    (fieldData w ≠ 0#8 ∧ (fieldOp w).toNat ≠ 8) ∨
    (fieldAddr w ≠ 0#16 ∧ (fieldOp w).toNat ≠ 5 ∧ (fieldOp w).toNat ≠ 7 ∧ (fieldOp w).toNat ≠ 8) := by
  have hnine : 9#4 ≤ fieldOp w ↔ 9 ≤ (fieldOp w).toNat := BitVec.le_def
  rw [decode_fields]
  simp only [hnine]
  generalize (fieldOp w).toNat = op
  by_cases hop : 9 ≤ op
  · simp [hop]
  by_cases hrsv : fieldRsv w = 0#3
  · interval_cases op <;> simp [hrsv, exists_illegal_iff, -not_and, not_and_or]
  · simp [hop, hrsv]

/-- A step that takes an Illegal word records IllegalCommand and completes (rules R56, R79). -/
theorem step_illegal {s : State} {w : Word} {rest : List Input} {why : IllegalWord} (hq : s.seq = .idle)
    (hin : s.inputs = .command w :: rest) (hd : decode w = .illegal why) :
    step s = .next { runIllegal w (accept rest s) with seq := .idle } := by
  simp only [step, hin, hq, runWord, hd, complete]

/-- Settles O4: the fields an Illegal word has set, and the step that takes one, which only records the fault. -/
theorem illegalWordsOnlyRecordTheFault : Obligations.IllegalWordsOnlyRecordTheFault := by
  refine ⟨decode_illegal_iff, fun s w rest why hq hin hd => ⟨_, step_illegal hq hin hd, ?_, ?_⟩⟩
  · simp [runIllegal]
  · simp [runIllegal, raiseFault, accept, ← hq]

/-! ### The assembler -/

theorem assembleLine_of_wellFormed {l : SourceLine} (h : l.wellFormed = true) : assembleLine l = .ok (expandLine l) :=
  if_pos h

theorem assembleLine_of_not_wellFormed {l : SourceLine} (h : l.wellFormed = false) :
    assembleLine l = .error .operandOutOfRange :=
  if_neg (h ▸ Bool.false_ne_true)

theorem expandLine_of_assembleLine {l : SourceLine} {is : List Instr} (h : assembleLine l = .ok is) : is = expandLine l := by
  unfold assembleLine at h
  split at h
  · injection h with h; exact h.symm
  · cases h

@[simp] theorem addrInRange_iff (n : Nat) : addrInRange n = true ↔ n ≤ 0xFFFF := decide_eq_true_iff

@[simp] theorem dataInRange_iff (n : Nat) : dataInRange n = true ↔ n ≤ 0xFF := decide_eq_true_iff

@[simp] theorem oeInRange_iff (n : Nat) : oeInRange n = true ↔ n ≤ 1 := decide_eq_true_iff

/-- An operand's own value is in its range (rules R35, R58). -/
@[simp] theorem addrInRange_toNat (a : Addr) : addrInRange a.toNat = true := (addrInRange_iff _).mpr (Nat.le_of_lt_succ a.isLt)

@[simp] theorem dataInRange_toNat (d : Byte) : dataInRange d.toNat = true := (dataInRange_iff _).mpr (Nat.le_of_lt_succ d.isLt)

@[simp] theorem oeInRange_toNat (oe : Bool) : oeInRange oe.toNat = true := (oeInRange_iff _).mpr (Bool.toNat_le oe)

/-- Settles O6: a line assembles to its expansion exactly when its operands are in range, and an operand in range is its own value. -/
theorem outOfRangeOperandsDoNotAssemble : Obligations.OutOfRangeOperandsDoNotAssemble := by
  refine ⟨fun _ => assembleLine_of_not_wellFormed, fun _ => assembleLine_of_wellFormed, ?_, ?_,
    addrInRange_iff, addrInRange_iff, addrInRange_iff, addrInRange_iff,
    rfl, rfl, rfl, rfl, rfl, ?_, rfl, ?_, ?_, rfl, ?_, ?_, rfl, ?_, rfl⟩
  · exact fun a oe => by simp [SourceLine.wellFormed]
  · exact fun a d => by simp [SourceLine.wellFormed]
  all_goals
    intros
    rw [assembleLine_of_wellFormed (by simp [SourceLine.wellFormed])]
    simp [expandLine]

/-! ### Commands that record no fault -/

theorem Pins.contended_oeHigh {p : Pins} (h : p.oeN = true) : p.contended = false := by
  simp [Pins.contended, Pins.sramDrives, h]

/-- Contention once OE_n is driven to enable the SRAM's output or not, the other pins at rest (rules R40, R68). -/
theorem Pins.Resting.contended_driveOe {p : Pins} (h : p.Resting) (oe : Bool) :
    ({ p with oeN := !oe } : Pins).contended = (p.controllerDrives && p.selected && oe) := by
  have hrest : ({ p with oeN := !oe } : Pins).Resting := ⟨h.wePaired, h.weHigh, h.sclkLow, h.rclkLow⟩
  rw [Pins.contended, hrest.sramDrives_eq, Bool.not_not, ← Bool.and_assoc]
  rfl

/-- While OE_n stays 1 the SRAM drives nothing, so nothing contends (rules R36, R40). -/
theorem contendedIn_oeHigh {ps : List Prim} (hno : ∀ v, Prim.drive .oeN v ∉ ps) {p : Pins} (h : p.oeN = true) :
    contendedIn ps p = false := by
  induction ps generalizing p with
  | nil => rfl
  | cons q qs ih =>
    have hq : (q.onPins p).oeN = true := by
      rw [← h]
      cases q with
      | drive pin v =>
        cases pin with
        | oeN => exact absurd List.mem_cons_self (hno v)
        | weN => rw [Prim.onPins]; split <;> rfl
        | ser | sclk | rclk | csN => rfl
      | driveWeHigh | releaseWe | setDir | driveData | settle => rfl
    rw [contendedIn, Pins.contended_oeHigh hq, ih (fun v hv => hno v (List.mem_cons_of_mem q hv)) hq]
    rfl

/-- From pins that rest, contention is found at some primitive of a command exactly where `contends` says so (rules R40, R86). -/
theorem contendedIn_commandSeq (i : Instr) {p : Pins} (h : p.Resting) : contendedIn (commandSeq i) p = contends i p := by
  cases i with
  | delay | sample => exact Bool.or_false _
  | select => exact contendedIn_controlSeq (.inl rfl) h
  | deselect => exact contendedIn_controlSeq (.inr (.inl rfl)) h
  | dirIn => exact contendedIn_controlSeq (.inr (.inr (.inl rfl))) h
  | dirOut => exact contendedIn_controlSeq (.inr (.inr (.inr rfl))) h
  | setAddr a oe =>
    rw [commandSeq, setAddress_contended a oe p h.sclkLow, h.contended_driveOe]
    rfl
  | read a =>
    have hsettle : contendedIn [.settle] { p with ser := a.getLsbD 0, rclk := false, oeN := !true } =
        ({ p with oeN := !true } : Pins).contended := Bool.or_false _
    rw [commandSeq, readSeq, contendedIn_append, setAddress_contended a true p h.sclkLow, setAddress_pins a true p h.sclkLow,
      hsettle, h.contended_driveOe, Pins.contended, h.sramDrives_eq]
    cases hctrl : p.controllerDrives <;> cases hsel : p.selected <;> simp [contends, hctrl, hsel]
  | write a d =>
    have hno : ∀ v, Prim.drive .oeN v ∉ [.driveData d, .settle] ++ strobeSeq := by simp [strobeSeq]
    rw [commandSeq, writeSeq, List.append_assoc, contendedIn_append, setAddress_contended a false p h.sclkLow,
      setAddress_pins a false p h.sclkLow, contendedIn_oeHigh hno rfl, h.contended_driveOe, Bool.and_false, Bool.or_false,
      Bool.or_false]
    rfl

/-- No command of a list finds a cause of a fault, run one after the other from the pins `p` (rule R86). -/
def Faultless : List Instr → Pins → Prop
  | [], _ => True
  | i :: is, p =>
    (needsSelect i && !p.selected) = false ∧ mismatch i p = false ∧ contends i p = false ∧ Faultless is (commandPins i p)

/-- A command that finds no cause of a fault leaves the record (rules R40, R86, R88). -/
theorem exec_record_of_noCause {i : Instr} {s t : State} (hs : s.pins.Resting) (h : exec i s = .next t)
    (hsel : (needsSelect i && !s.pins.selected) = false) (hdir : mismatch i s.pins = false) (hcont : contends i s.pins = false) :
    t.record = s.record := by
  rw [(exec_frame h).record, State.commandRecord, State.checked, contendedIn_commandSeq i hs, hsel, hdir, hcont]
  rfl

theorem runSteps_record_of_faultless {is : List Instr} {s t : State} (hs : s.Inv)
    (hin : s.inputs = is.map fun i => .command (encode i)) (hf : Faultless is s.pins) (h : runSteps is.length s = .next t) :
    t.record = s.record := by
  induction is generalizing s with
  | nil => injection h with h; rw [h]
  | cons i is ih =>
    obtain ⟨hsel, hdir, hcont, hrest⟩ := hf
    obtain ⟨v, hstep, hrun⟩ := runSteps_succ.mp h
    have hv := (stepKeepsTheInvariant s v hs hstep).1
    obtain ⟨u, hexec, rfl⟩ := step_encode hs.idle hin hstep
    have hfirst : u.record = s.record := exec_record_of_noCause (s := accept _ s) hs.resting hexec hsel hdir hcont
    exact (ih hv (exec_frame hexec).inputs (exec_pins hexec ▸ hrest) hrun).trans hfirst

/-- Settles O50: with OE_n = 1 after SETADDR, or with DIR = In, no command of the expansion can contend. -/
theorem pseudoCommandsDoNotContend : Obligations.PseudoCommandsDoNotContend := by
  intro s t l is hs hfree hl hasm hin hrun
  obtain rfl := expandLine_of_assembleLine hasm
  refine runSteps_record_of_faultless hs hin ?_ hrun
  rcases hl with ⟨a, rfl | rfl | rfl⟩ | rfl | rfl <;>
    simp [expandLine, Faultless, needsSelect, mismatch, contends, commandPins, controlPins, Pins.controllerDrives, hfree]

end Sys2Proof.Machine
end

section
/-! PROOFS of the statements of 40_address_latch.md: the serial edges, the address sent bit by bit and latched, and the wires of SETADDR, READ
and WRITE. -/

namespace Sys2Proof.Machine

/-! ### A primitive moves at most one pin -/

/-- The pin a primitive acts on, if it acts on one (rules R11, R20). -/
def Prim.target : Prim → Option Pin
  | .drive q _ => some q
  | .driveWeHigh | .releaseWe => some .weN
  | .setDir _ | .driveData _ | .settle => none

/-- WE_n driven while it is released leaves the pin drivers (rule R20). -/
theorem Prim.onPins_drive_weN (v : Bool) (x : Pins) :
    (Prim.drive .weN v).onPins x = { x with weLvl := if x.weMode = .driven then v else x.weLvl } := by
  rcases x with ⟨cs, m, l, oe, d, se, sc, rc⟩
  cases m <;> rfl

/-- A primitive keeps the level of every pin it does not act on. -/
theorem Prim.level_of_target_ne {p : Prim} {q : Pin} (h : p.target ≠ some q) (x : Pins) : (p.onPins x).level q = x.level q := by
  cases p with
  | setDir | driveData | settle => cases q <;> rfl
  | driveWeHigh | releaseWe => cases q <;> simp [Prim.target, Prim.onPins, Pins.level] at h ⊢
  | drive q' v =>
    cases q' with
    | weN =>
      rw [Prim.onPins_drive_weN]
      cases q <;> simp [Prim.target, Pins.level] at h ⊢
    | ser | sclk | rclk | oeN | csN => cases q <;> simp [Prim.target, Prim.onPins, Pins.level, Pins.weN] at h ⊢

theorem Prim.target_of_level_ne {p : Prim} {q : Pin} {x : Pins} (h : (p.onPins x).level q ≠ x.level q) : p.target = some q := by
  by_contra hne
  exact h (Prim.level_of_target_ne hne x)

/-! ### The serial edges -/

theorem risingEdge_iff (q : Pin) (x y : Pins) : risingEdge q x y = true ↔ x.level q = .low ∧ y.level q = .high :=
  rises_iff _ _

/-- RCLK and SCLK never rise at one primitive (rule R11). -/
theorem risingEdge_sclk_of_rclk {p : Prim} {x : Pins} (h : risingEdge .rclk x (p.onPins x) = true) :
    risingEdge .sclk x (p.onPins x) = false := by
  obtain ⟨hlow, hhigh⟩ := (risingEdge_iff _ _ _).mp h
  have htarget : p.target = some .rclk := Prim.target_of_level_ne (by rw [hlow, hhigh]; decide)
  have hhold := Prim.level_of_target_ne (p := p) (q := .sclk) (by rw [htarget]; decide) x
  rw [risingEdge, hhold]
  exact risingEdge_self x .sclk

theorem levelOf_low_iff (b : Bool) : levelOf b = .low ↔ b = false := by cases b <;> decide

theorem levelOf_high_iff (b : Bool) : levelOf b = .high ↔ b = true := by cases b <;> decide

theorem risingEdge_sclk_iff (x y : Pins) : risingEdge .sclk x y = true ↔ x.sclk = false ∧ y.sclk = true := by
  rw [risingEdge_iff]; exact and_congr (levelOf_low_iff _) (levelOf_high_iff _)

theorem risingEdge_rclk_iff (x y : Pins) : risingEdge .rclk x y = true ↔ x.rclk = false ∧ y.rclk = true := by
  rw [risingEdge_iff]; exact and_congr (levelOf_low_iff _) (levelOf_high_iff _)

@[simp] theorem Prim.onRegs_sr (p : Prim) (r : Regs) : (p.onRegs r).sr = r.sr := by cases p <;> rfl

@[simp] theorem Prim.onRegs_al (p : Prim) (r : Regs) : (p.onRegs r).al = r.al := by cases p <;> rfl

/-- SR after a primitive (rule R60). -/
theorem Prim.regsAfter_sr (p : Prim) (s : State) :
    (p.regsAfter s).sr =
      if risingEdge .sclk s.pins (p.onPins s.pins) then shiftIn s.regs.sr (p.onPins s.pins).ser else s.regs.sr := by
  simp [Prim.regsAfter, latchReaction, shiftReaction]

/-- AL after a primitive: SR is latched as it was, because SCLK does not rise with RCLK (rule R61). -/
theorem Prim.regsAfter_al (p : Prim) (s : State) :
    (p.regsAfter s).al = if risingEdge .rclk s.pins (p.onPins s.pins) then s.regs.sr else s.regs.al := by
  cases h : risingEdge .rclk s.pins (p.onPins s.pins) with
  | false => simp [Prim.regsAfter, latchReaction, shiftReaction, h]
  | true => simp [Prim.regsAfter, latchReaction, shiftReaction, h, risingEdge_sclk_of_rclk h]

theorem getLsbD_shiftIn_zero {n : Nat} (v : BitVec (n + 1)) (b : Bool) : (shiftIn v b).getLsbD 0 = b := by
  simp [shiftIn]

theorem getLsbD_shiftIn_succ {n : Nat} (v : BitVec n) (b : Bool) {i : Nat} (h : i + 1 < n) :
    (shiftIn v b).getLsbD (i + 1) = v.getLsbD i := by
  simp [shiftIn, h, BitVec.getLsbD_eq_getElem (Nat.lt_of_succ_lt h)]

/-- Settles O8: SR and AL after a primitive, by whether SCLK or RCLK rises at it. -/
theorem serialEdgesShiftAndLatch : Obligations.SerialEdgesShiftAndLatch := by
  intro w s p
  obtain ⟨-, -, hpins, hregs, -⟩ := runPrim_frame w s p
  obtain ⟨-, -, -, hsample, -⟩ := sampleBusState_frame w s
  simp only [State.addressPins, hpins, hregs, ← risingEdge_sclk_iff, ← risingEdge_rclk_iff]
  refine ⟨fun hrise => ?_, fun hstay => ?_, fun hrise => ?_, fun hstay => ?_, hsample⟩
  · rw [Prim.regsAfter_sr, if_pos hrise]
    exact ⟨getLsbD_shiftIn_zero _ _, fun i hi => getLsbD_shiftIn_succ _ _ (Nat.succ_lt_succ hi)⟩
  · rw [Prim.regsAfter_sr, if_neg hstay]
  · rw [Prim.regsAfter_al, if_pos hrise]
    exact ⟨rfl, rfl⟩
  · rw [Prim.regsAfter_al, if_neg hstay]

/-! ### The address sent bit by bit and latched -/

/-- A shift drops the top bit and appends the new one (rule R60). -/
theorem shiftIn_eq_append {n : Nat} (v : BitVec (n + 1)) (b : Bool) : shiftIn v b = v.extractLsb' 0 n ++ BitVec.ofBool b := by
  refine BitVec.eq_of_getLsbD_eq fun i hi => ?_
  cases i with
  | zero => rw [getLsbD_shiftIn_zero, BitVec.getLsbD_append]; simp
  | succ i => rw [getLsbD_shiftIn_succ v b hi, BitVec.getLsbD_append]; simp [Nat.lt_of_succ_lt_succ hi]

/-- Settles O9: the wires, the register and the pins of one `ShiftBit`. -/
theorem shiftBitSetsSerBeforeTheClock : Obligations.ShiftBitSetsSerBeforeTheClock := by
  intro w s b hs
  obtain ⟨-, -, hpins, hregs, -⟩ := runPrims_frame w (shiftBit b) s
  refine ⟨?_, ?_, ?_⟩
  · rw [wires_shiftBit w b s hs.sclkLow, List.reverse_append, levelChange_reverse]
    rfl
  · rw [hregs, shiftBit_regs b _ _ hs.sclkLow]
    exact shiftIn_eq_append _ _
  · rw [hpins, shiftBit_pins b _ hs.sclkLow]

/-- The two bytes of `SetAddress` are the sixteen bits of the address (rule R65). -/
theorem shiftOutBytes_eq (a : Addr) :
    shiftOutByte (addrHigh a) ++ shiftOutByte (addrLow a) = (addrBits a).flatMap shiftBit :=
  List.flatMap_append.symm

/-- Settles O11: sixteen shifts flush SR, and the latch pulse copies it. -/
theorem sixteenShiftsLeaveTheAddress : Obligations.SixteenShiftsLeaveTheAddress := by
  intro w s a hs
  rw [shiftOutBytes_eq]
  obtain ⟨-, -, htpins, htregs, -⟩ := runPrims_frame w ((addrBits a).flatMap shiftBit) s
  rw [shiftBits_pins _ _ hs.sclkLow] at htpins
  rw [shiftBits_regs _ _ _ hs.sclkLow, shiftIn_addrBits] at htregs
  generalize runPrims w ((addrBits a).flatMap shiftBit) s = t at htpins htregs ⊢
  obtain ⟨-, -, -, huregs, -⟩ := runPrims_frame w latchPulse t
  rw [latchPulse_regs _ _ (by rw [htpins]; exact hs.sclkLow), htregs] at huregs
  refine ⟨htregs, by rw [htregs], by rw [htregs], huregs, fun i => ?_⟩
  rw [State.addressPins, huregs]

/-- Settles O18: the pins and registers of `SetAddress`, and contention before or after OE_n is driven. -/
theorem setAddrLatchesTheAddress : Obligations.SetAddrLatchesTheAddress := by
  intro s a oe hs
  refine ⟨decode_encode (.setAddr a oe), _, rfl, ?_⟩
  obtain ⟨tr, hrun⟩ := setAddress_spec (encode (.setAddr a oe)) a oe s hs.sclkLow hs.calm
  rw [hrun, hs.contended_driveOe]
  simp [State.noTrace, State.recordAfter, hs.rclkLow]

/-! ### A view of the trace is a view of the wires -/

section
variable {α : Type} {f : Event → Option α} (hc : f .contention = none) (hl : ∀ a b, f (.lost a b) = none)
include hc hl

/-- A view that sees neither CONTENTION nor lost cells sees the wires alone. -/
theorem view_wires (tr : List Event) : view f (wires tr) = view f tr := by
  have hoff : ∀ e : Event, e.onWires = false → f e = none := by
    intro e he
    cases e with
    | contention => exact hc
    | lost a b => exact hl a b
    | pin | address | data | settle | commit | reset => cases he
  induction tr with
  | nil => rfl
  | cons e tr ih =>
    rw [view_cons, ← ih, wires, List.filter_cons]
    cases he : e.onWires with
    | true => exact view_cons f e _
    | false => simp [hoff e he, wires]

/-- What a view gains is what it sees of the entries the wires gain. -/
theorem view_of_wires {tr tr' es : List Event} (h : wires tr' = es.reverse ++ wires tr) :
    view f tr' = view f tr ++ es.filterMap f := by
  rw [← view_wires hc hl tr', h, ← view_wires hc hl tr]
  simp [view]

end

theorem pinHistory_congr {tr tr' : List Event} (h : wires tr' = wires tr) (q : Pin) : pinHistory q tr' = pinHistory q tr := by
  have hview := view_of_wires (f := Event.levelOfPin q) rfl (fun _ _ => rfl) (es := []) h
  exact hview.trans (List.append_nil _)

theorem addressHistory_of_wires {tr tr' es : List Event} (h : wires tr' = es.reverse ++ wires tr) :
    addressHistory tr' = addressHistory tr ++ es.filterMap Event.addressOf :=
  view_of_wires (f := Event.addressOf) rfl (fun _ _ => rfl) h

/-! ### The levels of one pin over a sequence -/

/-- The levels pin `q` changes to over a sequence, oldest first (rules R12, R103). -/
def levelsIn (q : Pin) : List Prim → Pins → List Level
  | [], _ => []
  | p :: ps, x =>
    (if x.level q ≠ (p.onPins x).level q then [(p.onPins x).level q] else []) ++ levelsIn q ps (p.onPins x)

theorem levelsIn_append (q : Pin) (ps ps' : List Prim) (x : Pins) :
    levelsIn q (ps ++ ps') x = levelsIn q ps x ++ levelsIn q ps' (pinsAfter ps x) := by
  induction ps generalizing x with
  | nil => rfl
  | cons p ps ih => rw [List.cons_append, levelsIn, ih, levelsIn, List.append_assoc]; rfl

/-- A pin that no primitive of a sequence acts on keeps its level. -/
theorem levelsIn_eq_nil {q : Pin} {ps : List Prim} (h : ∀ p ∈ ps, p.target ≠ some q) (x : Pins) : levelsIn q ps x = [] := by
  induction ps generalizing x with
  | nil => rfl
  | cons p ps ih =>
    obtain ⟨hp, hps⟩ := List.forall_mem_cons.mp h
    rw [levelsIn, Prim.level_of_target_ne hp, ih hps]
    simp

theorem pinHistory_runPrims (w : Word) (q : Pin) (ps : List Prim) (s : State) :
    pinHistory q (runPrims w ps s).trace = pinHistory q s.trace ++ levelsIn q ps s.pins := by
  induction ps generalizing s with
  | nil => exact (List.append_nil _).symm
  | cons p ps ih =>
    obtain ⟨-, -, hpins, -⟩ := runPrim_frame w s p
    rw [show runPrims w (p :: ps) s = runPrims w ps (runPrim w s p) from rfl, ih, pinHistory_runPrim, hpins, levelsIn,
      List.append_assoc]

/-! ### The levels of the pins over the procedures -/

/-- SCLK goes high and low once for each bit (rule R62). -/
theorem levelsIn_sclk_shiftBits (bs : List Bool) {x : Pins} (h : x.sclk = false) :
    levelsIn .sclk (bs.flatMap shiftBit) x = (List.replicate bs.length [Level.high, Level.low]).flatten := by
  induction bs generalizing x with
  | nil => rfl
  | cons b bs ih =>
    have hbit : levelsIn .sclk (shiftBit b) x = [.high, .low] := by
      simp [shiftBit, levelsIn, Prim.onPins, Pins.level, levelOf, h]
    rw [List.flatMap_cons, levelsIn_append, hbit, shiftBit_pins b x h, ih (x := { x with ser := b }) h]
    rfl

/-- The bits move SER and SCLK alone (rule R62). -/
theorem target_shiftBits {bs : List Bool} {q : Pin} (h1 : q ≠ .ser) (h2 : q ≠ .sclk) :
    ∀ p ∈ bs.flatMap shiftBit, p.target ≠ some q := by
  intro p hp
  obtain ⟨b, -, hb⟩ := List.mem_flatMap.mp hp
  have hbit : ∀ p ∈ shiftBit b, p.target ≠ some q := by simp [shiftBit, Prim.target, h1.symm, h2.symm]
  exact hbit p hb

/-- The latch pulse moves RCLK alone (rule R64). -/
theorem target_latchPulse {q : Pin} (h : q ≠ .rclk) : ∀ p ∈ latchPulse, p.target ≠ some q := by
  simp [latchPulse, Prim.target, h.symm]

theorem target_driveOe {q : Pin} (h : q ≠ .oeN) (v : Bool) : ∀ p ∈ [Prim.drive .oeN v, .settle], p.target ≠ some q := by
  simp [Prim.target, h.symm]

theorem levelsIn_sclk_setAddress (a : Addr) (oe : Bool) {x : Pins} (h : x.sclk = false) :
    levelsIn .sclk (setAddress a oe) x = (List.replicate 16 [Level.high, Level.low]).flatten := by
  rw [setAddress_eq, levelsIn_append, levelsIn_append, levelsIn_sclk_shiftBits _ h,
    levelsIn_eq_nil (target_latchPulse (by decide)), levelsIn_eq_nil (target_driveOe (by decide) _)]
  rfl

theorem levelsIn_rclk_setAddress (a : Addr) (oe : Bool) {x : Pins} (hs : x.sclk = false) (h : x.rclk = false) :
    levelsIn .rclk (setAddress a oe) x = [.high, .low] := by
  rw [setAddress_eq, levelsIn_append, levelsIn_append, levelsIn_eq_nil (target_shiftBits (by decide) (by decide)),
    levelsIn_eq_nil (target_driveOe (by decide) _), shiftBits_pins _ _ hs]
  simp [latchPulse, levelsIn, Prim.onPins, Pins.level, levelOf, h]

/-- `SetAddress` leaves WE_n alone (rules R65, R102). -/
theorem target_setAddress_weN (a : Addr) (oe : Bool) : ∀ p ∈ setAddress a oe, p.target ≠ some .weN := by
  rw [setAddress_eq]
  simp only [List.forall_mem_append]
  exact ⟨target_shiftBits (by decide) (by decide), target_latchPulse (by decide), target_driveOe (by decide) _⟩

/-- OE_n moves with the last step of `SetAddress` and not before (rule R65). -/
theorem levelsIn_oeN_sendAndLatch (a : Addr) (x : Pins) :
    levelsIn .oeN ((addrBits a).flatMap shiftBit ++ latchPulse) x = [] := by
  rw [levelsIn_append, levelsIn_eq_nil (target_shiftBits (by decide) (by decide)), levelsIn_eq_nil (target_latchPulse (by decide))]
  rfl

theorem levelsIn_oeN_driveOe (v : Bool) (x : Pins) :
    levelsIn .oeN [.drive .oeN v, .settle] x = if x.oeN = v then [] else [levelOf v] := by
  cases h : x.oeN <;> cases v <;> simp [levelsIn, Prim.onPins, Pins.level, levelOf, h]

/-- WE_n goes low and high in the strobe while Selected, and stays while it is released (rules R20, R82). -/
theorem levelsIn_weN_strobeSeq {x : Pins} (h : x.Resting) :
    levelsIn .weN strobeSeq x = if x.selected then [.low, .high] else [] := by
  rcases h.cases with hx | hx <;> rw [hx] <;> rfl

/-! ### The address pins over `SetAddress` -/

theorem addressOf_levelChange (q : Pin) (u v : Bool) : (levelChange q u v).filterMap Event.addressOf = [] := by
  unfold levelChange; split <;> rfl

/-- The bits leave the address pins (rule R67). -/
theorem addressOf_shiftWires (ser : Bool) (bs : List Bool) : (shiftWires ser bs).filterMap Event.addressOf = [] := by
  induction bs generalizing ser with
  | nil => rfl
  | cons b bs ih =>
    rw [shiftWires, List.filterMap_append, ih, List.filterMap_append, addressOf_levelChange]
    rfl

/-- The latch pulse shows the new address once, if it is another (rule R61). -/
theorem addressOf_latchWires (old new : Addr) :
    (latchWires old new).filterMap Event.addressOf = if old = new then [] else [new] := by
  unfold latchWires; split <;> rfl

theorem addressOf_setAddressWires (s : State) (a : Addr) (oe : Bool) :
    (setAddressWires s a oe).filterMap Event.addressOf = if s.regs.al = a then [] else [a] := by
  simp [setAddressWires, addressOf_shiftWires, addressOf_latchWires, addressOf_levelChange, Event.addressOf]

/-- Settles O37: the address pins by the wires of `SetAddress`, OE_n by the primitives that act on it. -/
theorem addressPinsChangeOnce : Obligations.AddressPinsChangeOnce := by
  intro w s a oe hs
  rw [shiftOutBytes_eq]
  obtain ⟨tr, hrun⟩ := setAddress_spec w a oe s hs.sclkLow hs.calm
  refine ⟨?_, ?_, ?_, ?_, by rw [hrun]; rfl, by rw [hrun]⟩
  · rw [addressHistory_of_wires (wires_shiftBits w _ s hs.sclkLow), addressOf_shiftWires, List.append_nil]
  · rw [addressHistory_of_wires (wires_setAddress w a oe s hs.sclkLow hs.rclkLow), addressOf_setAddressWires]
  · rw [pinHistory_runPrims, levelsIn_oeN_sendAndLatch, List.append_nil]
  · rw [pinHistory_runPrims, setAddress_eq, ← List.append_assoc, levelsIn_append, levelsIn_oeN_sendAndLatch, levelsIn_oeN_driveOe,
      pinsAfter_append, shiftBits_pins _ _ hs.sclkLow, latchPulse_pins]
    rfl

/-! ### The wires and the pins of a command -/

/-- A sample, a draw and a response put nothing on the wires. -/
theorem exec_wires {i : Instr} {s t : State} (h : exec i s = .next t) : wires t.trace = wires (s.driven i).trace := by
  rcases exec_cases h with ⟨-, rfl⟩ | ⟨-, v, u, rfl, rfl | rfl | rfl⟩
  · rfl
  · rfl
  · exact wires_sampleBus _ _
  · exact wires_sampleBus _ _

/-- The levels of a pin over a command are those over its primitives, in every state. -/
theorem exec_pinHistory {i : Instr} {s t : State} (h : exec i s = .next t) (q : Pin) :
    pinHistory q t.trace = pinHistory q s.trace ++ levelsIn q (commandSeq i) s.pins :=
  (pinHistory_congr (exec_wires h) q).trans (pinHistory_runPrims (encode i) q (commandSeq i) (s.checked i))

/-- The commands that send an address begin with `SetAddress` and leave the serial clocks afterwards (rules R68, R81, R82). -/
theorem commandSeq_of_sends {i : Instr} (h : Sends i) :
    ∃ a oe ps, commandSeq i = setAddress a oe ++ ps ∧ ∀ p ∈ ps, p.target ≠ some .sclk ∧ p.target ≠ some .rclk := by
  rcases h with ⟨a, oe, rfl⟩ | ⟨a, rfl⟩ | ⟨a, d, rfl⟩
  · exact ⟨a, oe, [], (List.append_nil _).symm, by simp⟩
  · exact ⟨a, true, _, rfl, by simp [Prim.target]⟩
  · exact ⟨a, false, _, List.append_assoc _ _ _, by simp [strobeSeq, Prim.target]⟩

theorem levelsIn_sclk_of_sends {i : Instr} (h : Sends i) {x : Pins} (hs : x.sclk = false) :
    levelsIn .sclk (commandSeq i) x = (List.replicate 16 [Level.high, Level.low]).flatten := by
  obtain ⟨a, oe, ps, hseq, hps⟩ := commandSeq_of_sends h
  rw [hseq, levelsIn_append, levelsIn_sclk_setAddress a oe hs, levelsIn_eq_nil fun p hp => (hps p hp).1, List.append_nil]

theorem levelsIn_rclk_of_sends {i : Instr} (h : Sends i) {x : Pins} (hs : x.sclk = false) (hr : x.rclk = false) :
    levelsIn .rclk (commandSeq i) x = [.high, .low] := by
  obtain ⟨a, oe, ps, hseq, hps⟩ := commandSeq_of_sends h
  rw [hseq, levelsIn_append, levelsIn_rclk_setAddress a oe hs hr, levelsIn_eq_nil fun p hp => (hps p hp).2, List.append_nil]

/-- The levels WE_n changes to over a command from pins that rest: SELECT drives it high, DESELECT releases it, WRITE strobes it while
Selected, and no other command moves it (rules R76, R77, R82, R102). -/
def weLevels : Instr → Pins → List Level
  | .select, x => if x.selected then [] else [.high]
  | .deselect, x => if x.selected then [.z] else []
  | .write _ _, x => if x.selected then [.low, .high] else []
  | .delay, _ | .dirIn, _ | .dirOut, _ | .setAddr _ _, _ | .sample, _ | .read _, _ => []

theorem levelsIn_weN_commandSeq (i : Instr) {x : Pins} (h : x.Resting) : levelsIn .weN (commandSeq i) x = weLevels i x := by
  cases i with
  | select | deselect => rcases h.cases with hx | hx <;> rw [hx] <;> rfl
  | delay | dirIn | dirOut | sample => exact levelsIn_eq_nil (by simp [commandSeq, dirInSeq, dirOutSeq, Prim.target]) x
  | setAddr a oe => exact levelsIn_eq_nil (target_setAddress_weN a oe) x
  | read a =>
    rw [commandSeq, readSeq, levelsIn_append, levelsIn_eq_nil (target_setAddress_weN a true)]
    exact levelsIn_eq_nil (by simp [Prim.target]) _
  | write a d =>
    have hrest : (pinsAfter (setAddress a false ++ [.driveData d, .settle]) x).Resting := by
      rw [pinsAfter_append, setAddress_pins _ _ _ h.sclkLow]
      exact ⟨h.wePaired, h.weHigh, h.sclkLow, rfl⟩
    have hsel : (pinsAfter (setAddress a false ++ [.driveData d, .settle]) x).selected = x.selected := by
      rw [pinsAfter_append, setAddress_pins _ _ _ h.sclkLow]; rfl
    rw [commandSeq, writeSeq, levelsIn_append, levelsIn_weN_strobeSeq hrest, hsel, levelsIn_append,
      levelsIn_eq_nil (target_setAddress_weN a false), levelsIn_eq_nil (by simp [Prim.target])]
    rfl

/-- The wires of SETADDR (rules R65, R68). -/
theorem exec_setAddr_wires {a : Addr} {oe : Bool} {s t : State} (hs : s.pins.Resting) (h : exec (.setAddr a oe) s = .next t) :
    wires t.trace = (setAddressWires s a oe).reverse ++ wires s.trace :=
  (exec_wires h).trans (wires_setAddress _ a oe (s.checked _) hs.sclkLow hs.rclkLow)

/-- The wires of READ (rule R81). -/
theorem exec_read_wires {a : Addr} {s t : State} (hs : s.pins.Resting) (h : exec (.read a) s = .next t) :
    wires t.trace = (setAddressWires s a true ++ [Event.settle]).reverse ++ wires s.trace := by
  have haddr := wires_setAddress (encode (.read a)) a true (s.checked (.read a)) hs.sclkLow hs.rclkLow
  rw [exec_wires h, State.driven, commandSeq, readSeq, runPrims_append, List.reverse_append]
  exact (wires_settle _ _).trans (congrArg (Event.settle :: ·) haddr)

/-- The address and the data of WRITE, from pins that rest: on the wires (rule R82). -/
theorem wires_writeAddressData (w : Word) (a : Addr) (d : Byte) {s : State} (hs : s.pins.Resting) :
    wires (runPrims w (setAddress a false ++ [.driveData d, .settle]) s).trace =
      (setAddressWires s a false ++ driveDataWires s d).reverse ++ wires s.trace := by
  obtain ⟨tr, hrun⟩ := setAddress_spec w a false s hs.sclkLow hs.calm
  have haddr := wires_setAddress w a false s hs.sclkLow hs.rclkLow
  rw [runPrims_append]
  generalize runPrims w (setAddress a false) s = u at hrun haddr ⊢
  have hdir : u.pins.dir = s.pins.dir := by rw [hrun]
  have hdout : u.regs.dout = s.regs.dout := by rw [hrun]
  change wires (runPrim w (runPrim w u (.driveData d)) .settle).trace = _
  rw [wires_settle, wires_driveData, hdir, hdout, haddr, driveDataWires]
  split <;> simp

/-- At rest the chip is selected exactly when CS_n = 0 (rule R27). -/
theorem Pins.Resting.selected_eq {p : Pins} (h : p.Resting) : p.selected = !p.csN := by
  rcases h.cases with hp | hp <;> rw [hp] <;> rfl

/-- The wires of WRITE: the address, the data, and a strobe that commits while Selected (rules R20, R37, R82). -/
theorem exec_write_wires {a : Addr} {d : Byte} {s t : State} (hs : s.pins.Resting) (h : exec (.write a d) s = .next t) :
    wires t.trace =
      (setAddressWires s a false ++ driveDataWires s d ++
        if s.pins.selected then strobeWires a (if s.pins.dir = .output then d else s.nextDraw)
        else [Event.settle, .settle]).reverse ++ wires s.trace := by
  obtain ⟨tr, hrun⟩ := writeAddressData_spec (encode (.write a d)) a d (s.checked (.write a d)) hs
  have hsent : wires _ = (setAddressWires s a false ++ driveDataWires s d).reverse ++ wires s.trace :=
    wires_writeAddressData (encode (.write a d)) a d (s := s.checked (.write a d)) hs
  rw [exec_wires h, State.driven, commandSeq, writeSeq, runPrims_append]
  generalize runPrims _ _ (s.checked (.write a d)) = u at hrun hsent ⊢
  have hrest : u.pins.Resting := by rw [hrun]; exact ⟨hs.wePaired, hs.weHigh, hs.sclkLow, hs.rclkLow⟩
  have hcs : u.pins.csN = s.pins.csN := by rw [hrun]; rfl
  cases hsel : s.pins.csN with
  | false =>
    have hbyte : strobeWires u.regs.al (if u.pins.dir = .output then u.regs.dout else u.nextDraw) =
        strobeWires a (if s.pins.dir = .output then d else s.nextDraw) := by rw [hrun]; rfl
    rw [wires_strobe_selected _ u hrest (hcs.trans hsel) (by rw [hrun]), hbyte, hsent]
    simp [hs.selected_eq, hsel]
  | true =>
    rw [wires_strobe_deselected _ u hrest (hcs.trans hsel), hsent]
    simp [hs.selected_eq, hsel]

/-- Settles O36: the wires of SETADDR, READ and WRITE, and the levels of SCLK, RCLK and WE_n over the primitives of each command. -/
theorem latchAndStrobeEdgesInOrder : Obligations.LatchAndStrobeEdgesInOrder := by
  intro s t i hs h
  have hwe : pinHistory .weN t.trace = pinHistory .weN s.trace ++ weLevels i s.pins := by
    rw [exec_pinHistory h, levelsIn_weN_commandSeq i hs]
  refine ⟨fun hsend => ⟨?_, ?_⟩, ?_, ?_, ?_, ?_, ?_, ?_, ?_, ?_, fun hselect hdeselect hwrite => ?_⟩
  · rw [exec_pinHistory h, levelsIn_sclk_of_sends hsend hs.sclkLow]
  · rw [exec_pinHistory h, levelsIn_rclk_of_sends hsend hs.sclkLow hs.rclkLow]
  · rintro ⟨a, d, rfl⟩ hsel
    rw [hwe, weLevels, if_pos hsel]
  · rintro ⟨a, d, rfl⟩ hsel
    rw [hwe, weLevels, hsel]
    exact List.append_nil _
  · rintro a oe rfl
    exact exec_setAddr_wires hs h
  · rintro a rfl
    exact exec_read_wires hs h
  · rintro a d rfl hsel
    refine ⟨if s.pins.dir = .output then d else s.nextDraw, fun hdir => if_pos hdir, ?_⟩
    rw [exec_write_wires hs h, if_pos hsel]
  · rintro a d rfl hsel
    rw [exec_write_wires hs h, hsel]
    rfl
  · rintro rfl
    exact hwe
  · rintro rfl
    exact hwe
  · cases i with
    | select => exact absurd rfl hselect
    | deselect => exact absurd rfl hdeselect
    | write a d => exact absurd rfl (hwrite a d)
    | delay | dirIn | dirOut | setAddr | sample | read => exact hwe.trans (List.append_nil _)

end Sys2Proof.Machine
end

section
/-! PROOFS of the statements of 41_data_bus.md: the bit order of the data lines, the direction mux, and the byte SAMPLE answers with. -/

namespace Sys2Proof.Machine

/-! ### The bit order of the data lines -/

/-- Bits shifted in one after the other stand from bit 0 up in the reverse of their order (rules R60, R69). -/
theorem getElem?_reverse_foldl_shiftIn {n : Nat} (v : BitVec n) (bs : List Bool) {i : Nat} (hi : i < bs.length) (hn : i < n) :
    bs.reverse[i]? = some ((bs.foldl shiftIn v).getLsbD i) := by
  obtain ⟨n, rfl⟩ := Nat.exists_eq_add_one_of_ne_zero (Nat.ne_zero_of_lt hn)
  induction bs using List.reverseRecOn generalizing i with
  | nil => exact absurd hi (Nat.not_lt_zero i)
  | append_singleton bs b ih =>
    rw [List.reverse_concat, List.foldl_concat]
    cases i with
    | zero => rw [getLsbD_shiftIn_zero]; rfl
    | succ i =>
      rw [getLsbD_shiftIn_succ _ b hn, List.getElem?_cons_succ]
      exact ih (by simpa using hi) (Nat.lt_of_succ_lt hn)

/-- Bit i of the sampled byte is Di, the lines listed from D7 to D0 (rule R69). -/
theorem getElem?_lines {lines : List Bool} (h : lines.length = 8) {i : Nat} (hi : i < 8) :
    lines[7 - i]? = some ((byteOfLines lines).getLsbD i) := by
  have hbit := getElem?_reverse_foldl_shiftIn 0#8 lines (h ▸ hi) hi
  rwa [List.getElem?_reverse (h ▸ hi), h] at hbit

/-- Settles O7: driving puts bit i on Di because sampling takes it from there and gives the driven byte back. -/
theorem drivenByteSamplesBack : Obligations.DrivenByteSamplesBack := by
  refine ⟨fun _ _ h hi => getElem?_lines h hi, fun b i hi => ?_, byteOfLines_linesOf⟩
  rw [getElem?_lines (lines := linesOf b) rfl hi, byteOfLines_linesOf]

/-! ### The direction mux -/

/-- The data lines change where the mux turns: to nothing, or to DOUT (rules R18, R70). -/
theorem wires_setDir (w : Word) (s : State) (d : Dir) :
    wires (runPrim w s (.setDir d)).trace =
      (if s.pins.dir = d then [] else [.data ((Prim.setDir d).apply s).controllerData]) ++ wires s.trace := by
  have hdata : s.controllerData = ((Prim.setDir d).apply s).controllerData ↔ s.pins.dir = d := by
    cases hdir : s.pins.dir <;> cases d <;> simp [State.controllerData, hdir, Prim.onPins, Prim.onRegs]
  rw [wires_runPrim, strobeEnds_of_same (p := s.pins) (q := (Prim.setDir d).onPins s.pins) rfl rfl,
    regsAfter_al_hold (by simp [Prim.onPins])]
  simp [hdata, Prim.onRegs, Prim.onPins, Pins.level, Pins.weN]

/-- The data lines and the settle of DIR_IN and DIR_OUT (rules R72, R73). -/
theorem wires_setDir_settle (w : Word) (s : State) (d : Dir) :
    wires (runPrims w [.setDir d, .settle] s).trace =
      .settle :: (if s.pins.dir = d then [] else [.data ((Prim.setDir d).apply s).controllerData]) ++ wires s.trace :=
  (wires_settle w (runPrim w s (.setDir d))).trans (congrArg (Event.settle :: ·) (wires_setDir w s d))

/-- At rest the SRAM drives the bus exactly when the chip is selected with its output enabled (rules R27, R36). -/
theorem Pins.Resting.sramDrives_iff {p : Pins} (h : p.Resting) :
    p.sramDrives = true ↔ p.selected = true ∧ p.oeN = false := by
  simp [h.sramDrives_eq]

/-- Settles O16: DIR_IN moves the direction mux alone, and with DIR = In nothing contends. -/
theorem dirInReleasesTheBus : Obligations.DirInReleasesTheBus := by
  intro s hs
  have hwires : wires (runPrims (encode .dirIn) dirInSeq s).trace =
      .settle :: (if s.pins.dir = .output then [.data none] else []) ++ wires s.trace := by
    rw [dirInSeq, wires_setDir_settle]
    cases s.pins.dir <;> rfl
  have hexec : exec .dirIn s = .next (runPrims (encode .dirIn) dirInSeq s) := rfl
  obtain ⟨tr, hrun⟩ := exec_control_spec (.inr (.inr (.inl rfl))) hs hexec
  rw [hrun] at hwires hexec
  refine ⟨decode_encode .dirIn, _, hexec, rfl, Pins.contended_input rfl, rfl, hwires, fun hsel hoe => ?_⟩
  obtain ⟨-, -, hbus, -⟩ := busResolvesByItsDrivers { s with pins := controlPins .dirIn s.pins }
  exact (hbus rfl (hs.sramDrives_iff.mpr ⟨hsel, hoe⟩)).1

/-- Settles O17: DIR_OUT moves the direction mux alone, and it contends where the SRAM drives. -/
theorem dirOutDrivesDout : Obligations.DirOutDrivesDout := by
  intro s hs
  have hwires : wires (runPrims (encode .dirOut) dirOutSeq s).trace =
      .settle :: (if s.pins.dir = .input then [.data (some s.regs.dout)] else []) ++ wires s.trace := by
    rw [dirOutSeq, wires_setDir_settle]
    cases s.pins.dir <;> rfl
  have hexec : exec .dirOut s = .next (runPrims (encode .dirOut) dirOutSeq s) := rfl
  obtain ⟨tr, hrun⟩ := exec_control_spec (.inr (.inr (.inr rfl))) hs hexec
  rw [hrun] at hwires hexec
  exact ⟨decode_encode .dirOut, _, hexec, rfl, rfl, hwires⟩

/-! ### SAMPLE -/

/-- What the trace gains in settles is what the wires gain in them (rule R106). -/
theorem settleCount_of_wires {tr tr' es : List Event} (h : wires tr' = es.reverse ++ wires tr) :
    settleCount tr' = settleCount tr + (es.filterMap settleOf).length := by
  rw [settleCount_eq_view, settleCount_eq_view, view_of_wires rfl (fun _ _ => rfl) h, List.length_append]

/-- A sample at a calm moment answers with the bus, takes a draw where the bus gave one, and checks contention (rules R39, R40, R69). -/
theorem respondSample_calm (w : Word) {s : State} (h : s.pins.Calm) :
    ∃ tr, respondSample w s =
      { s with
        regs := { s.regs with rdata := s.bus }
        rspValid := true
        responses := s.responses ++ [s.bus]
        record := s.contentionRecord w
        draws := s.afterBus.draws
        trace := tr } := by
  obtain ⟨tr, hsample⟩ := sampleBusState_calm w s h
  refine ⟨tr, ?_⟩
  rw [respondSample, sampleBusValue, byteOfLines_linesOf, hsample, afterBus_eq]
  rfl

/-- SAMPLE with DIR = In answers with the bus and records nothing (rule R74). -/
theorem exec_sample_input {s : State} (hs : s.pins.Resting) (hdir : s.pins.dir = .input) :
    ∃ tr, exec .sample s = .next
      { s with
        regs := { s.regs with rdata := s.bus }
        rspValid := true
        responses := s.responses ++ [s.bus]
        draws := s.afterBus.draws
        trace := tr } := by
  have hctrl : s.pins.controllerDrives = false := by simp [Pins.controllerDrives, hdir]
  have hrec : s.contentionRecord (encode .sample) = s.record := by simp [State.contentionRecord, Pins.contended_input hdir]
  obtain ⟨tr, hsettle⟩ := settle_spec (encode .sample) s hs.calm
  rw [hrec] at hsettle
  have hexec : exec .sample s = .next (respondSample (encode .sample) { s with trace := tr }) := by
    simp [exec, execSample, hctrl, hsettle]
  obtain ⟨tr', hanswer⟩ := respondSample_calm (encode .sample) (s := { s with trace := tr }) hs.calm
  have hdraws : State.afterBus { s with trace := tr } = { s.afterBus with trace := tr } := by simp only [afterBus_eq]
  rw [show State.contentionRecord (encode .sample) { s with trace := tr } = s.record from hrec, hdraws] at hanswer
  exact ⟨tr', hexec.trans (congrArg Host.Outcome.next hanswer)⟩

/-- SAMPLE with DIR = Out records DirectionMismatch and contention that holds, and answers with a draw (rules R74, R88). -/
theorem exec_sample_output {s : State} (hs : s.pins.Resting) (hdir : s.pins.dir = .output) :
    ∃ tr, exec .sample s = .next
      { s with
        regs := { s.regs with rdata := s.nextDraw }
        rspValid := true
        responses := s.responses ++ [s.nextDraw]
        record := (raiseFault .directionMismatch (encode .sample) s).recordAfter s.pins.contended (encode .sample)
        draws := s.draws + 1
        trace := tr } := by
  have hctrl : s.pins.controllerDrives = true := by simp [Pins.controllerDrives, hdir]
  obtain ⟨tr, hsettle⟩ := settle_spec (encode .sample) (raiseFault .directionMismatch (encode .sample) s) hs.calm
  refine ⟨tr, ?_⟩
  have hexec : exec .sample s =
      .next (respondDraw (runPrims (encode .sample) [.settle] (raiseFault .directionMismatch (encode .sample) s))) := by
    simp only [exec, execSample, hctrl]; rfl
  rw [hexec, hsettle]
  rfl

/-- Settles O19: the byte is the bus, or a draw, by the direction; the wires gain the one settle. -/
theorem sampleReturnsTheBus : Obligations.SampleReturnsTheBus := by
  intro s hs
  have hwires {t : State} (h : exec .sample s = .next t) : wires t.trace = .settle :: wires s.trace :=
    (exec_wires h).trans (wires_settle _ (s.checked .sample))
  have hsettles {t : State} (h : exec .sample s = .next t) : settleCount t.trace = settleCount s.trace + 1 :=
    settleCount_of_wires (es := [.settle]) (hwires h)
  refine ⟨decode_encode .sample, ?_⟩
  obtain ⟨-, -, hdriven, hfloating⟩ := busResolvesByItsDrivers s
  cases hdir : s.pins.dir with
  | input =>
    obtain ⟨tr, hexec⟩ := exec_sample_input hs hdir
    refine ⟨_, hexec, rfl, fun _ => rfl, fun _ hsel hoe => ?_, fun _ hidle => ?_, nofun, hwires hexec, hsettles hexec⟩
    · obtain ⟨hbus, hafter⟩ := hdriven hdir (hs.sramDrives_iff.mpr ⟨hsel, hoe⟩)
      exact ⟨hbus, (congrArg State.draws hafter :)⟩
    · have hsram : s.pins.sramDrives = false := by
        rw [hs.sramDrives_eq]
        rcases hidle with h | h <;> simp [h]
      obtain ⟨hbus, hafter⟩ := hfloating (by simp [hdir, hsram])
      exact ⟨s.draws, le_rfl, (congrArg State.draws hafter).symm ▸ Nat.lt_succ_self _, hbus⟩
  | output =>
    obtain ⟨tr, hexec⟩ := exec_sample_output hs hdir
    exact ⟨_, hexec, rfl, nofun, nofun, nofun, fun _ => ⟨rfl, s.draws, le_rfl, Nat.lt_succ_self _, rfl⟩,
      hwires hexec, hsettles hexec⟩

end Sys2Proof.Machine
end

section
/-! PROOFS of the statements of 42_chip_control.md: the wires of SELECT and DESELECT. -/

namespace Sys2Proof.Machine

/-! ### A primitive that moves CS_n or WE_n -/

/-- No strobe ends between two calm moments (rule R37). -/
theorem Pins.Calm.strobeEnds_eq_false {x y : Pins} (hx : x.Calm) (hy : y.Calm) : strobeEnds x y = false := by
  simp [strobeEnds, risingEdge, rises, Pins.level, hx.notLow, hy.notLow]

/-- A pin at level `v` after level `u` makes an entry only if the level changes; the levels of WE_n include Z (rules R12, R20). -/
def levelMove (q : Pin) (u v : Level) : List Event := if u = v then [] else [.pin q v]

theorem levelMove_reverse (q : Pin) (u v : Level) : (levelMove q u v).reverse = levelMove q u v := by
  rw [levelMove]; split <;> rfl

/-- CS_n or WE_n: the pins of the chip-control family (rules R76, R77). -/
def IsChipPin (q : Pin) : Prop := q = .csN ∨ q = .weN

/-- A primitive that acts on a pin leaves what the controller puts on the data lines (rules R18, R19). -/
theorem Prim.controllerData_of_target {p : Prim} {q : Pin} (hp : p.target = some q) (s : State) :
    (p.apply s).controllerData = s.controllerData := by
  cases p with
  | setDir | driveData | settle => cases hp
  | driveWeHigh | releaseWe => rfl
  | drive q' v =>
    cases q' with
    | weN => rw [State.controllerData, primApply_pins, Prim.onPins_drive_weN]; rfl
    | ser | sclk | rclk | oeN | csN => rfl

/-- Between calm moments a primitive that acts on CS_n or WE_n puts the move of that pin on the wires, and nothing else (rules R12, R37). -/
theorem wires_chipPin (w : Word) {s : State} {p : Prim} {q : Pin} (hq : IsChipPin q) (hp : p.target = some q) (hs : s.pins.Calm)
    (ht : (p.onPins s.pins).Calm) :
    wires (runPrim w s p).trace = levelMove q (s.pins.level q) ((p.onPins s.pins).level q) ++ wires s.trace := by
  have hne : p ≠ .settle := by rintro rfl; cases hp
  have hkeep (q' : Pin) (h : q' ≠ q) : (p.onPins s.pins).level q' = s.pins.level q' :=
    Prim.level_of_target_ne (by rw [hp]; simpa using h.symm) _
  have hrclk : risingEdge .rclk s.pins (p.onPins s.pins) = false := by
    rw [risingEdge, hkeep .rclk (by rcases hq with rfl | rfl <;> decide)]
    exact risingEdge_self s.pins .rclk
  have hal : (p.regsAfter s).al = (p.onRegs s.regs).al := by
    rw [Prim.regsAfter_al, hrclk, Prim.onRegs_al]; rfl
  have hpins :
      ([Pin.ser, .sclk, .rclk, .oeN, .csN, .weN].flatMap fun q' =>
        if s.pins.level q' ≠ (p.onPins s.pins).level q' then [Event.pin q' ((p.onPins s.pins).level q')] else []) =
      levelMove q (s.pins.level q) ((p.onPins s.pins).level q) := by
    rcases hq with rfl | rfl <;> simp [hkeep, levelMove]
  rw [wires_runPrim, hs.strobeEnds_eq_false ht, hal, Prim.controllerData_of_target hp, hpins, levelMove_reverse, if_neg hne]
  simp

/-- Two such primitives, a settle after each (rules R76, R77, R103). -/
theorem wires_chipPins (w : Word) {s : State} {p p' : Prim} {q q' : Pin} (hq : IsChipPin q) (hq' : IsChipPin q')
    (hp : p.target = some q) (hp' : p'.target = some q') (h : CalmIn [p, .settle, p', .settle] s.pins) :
    wires (runPrims w [p, .settle, p', .settle] s).trace =
      .settle :: levelMove q' ((p.onPins s.pins).level q') ((p'.onPins (p.onPins s.pins)).level q') ++
        .settle :: levelMove q (s.pins.level q) ((p.onPins s.pins).level q) ++ wires s.trace := by
  obtain ⟨hs, hfirst, -, hsecond, -⟩ := h
  have hpins : (runPrim w (runPrim w s p) .settle).pins = p.onPins s.pins := by
    obtain ⟨-, -, hmove, -⟩ := runPrim_frame w s p
    obtain ⟨-, -, hwait, -⟩ := runPrim_frame w (runPrim w s p) .settle
    exact hwait.trans hmove
  change wires (runPrim w (runPrim w (runPrim w (runPrim w s p) .settle) p') .settle).trace = _
  rw [wires_settle, wires_chipPin w hq' hp' (hpins ▸ hfirst) (hpins ▸ hsecond), wires_settle, wires_chipPin w hq hp hs hfirst, hpins]
  simp

/-! ### SELECT and DESELECT -/

/-- At rest CS_n is low exactly while the chip is selected (rule R27). -/
theorem Pins.Resting.level_csN {p : Pins} (h : p.Resting) : p.level .csN = if p.selected then .low else .high := by
  rcases h.cases with hp | hp <;> rw [hp] <;> rfl

/-- At rest WE_n is high while the chip is selected and Z while it is not (rule R27). -/
theorem Pins.Resting.level_weN {p : Pins} (h : p.Resting) : p.level .weN = if p.selected then .high else .z := by
  rcases h.cases with hp | hp <;> rw [hp] <;> rfl

/-- The wires of SELECT: WE_n, then CS_n (rule R76). -/
theorem wires_selectSeq (w : Word) {s : State} (hs : s.pins.Resting) :
    wires (runPrims w selectSeq s).trace =
      .settle :: levelMove .csN (s.pins.level .csN) .low ++ .settle :: levelMove .weN (s.pins.level .weN) .high ++ wires s.trace :=
  wires_chipPins w (.inr rfl) (.inl rfl) rfl rfl (calmIn_controlSeq (.inl rfl) hs)

/-- The wires of DESELECT: CS_n, then WE_n (rule R77). -/
theorem wires_deselectSeq (w : Word) {s : State} (hs : s.pins.Resting) :
    wires (runPrims w deselectSeq s).trace =
      .settle :: levelMove .weN (s.pins.level .weN) .z ++ .settle :: levelMove .csN (s.pins.level .csN) .high ++ wires s.trace :=
  wires_chipPins w (.inl rfl) (.inr rfl) rfl rfl (calmIn_controlSeq (.inr (.inl rfl)) hs)

/-- Settles O14: SELECT moves WE_n and then CS_n where they were not there already, and it contends where the SRAM then drives against
DIR = Out. -/
theorem selectDrivesWeThenCs : Obligations.SelectDrivesWeThenCs := by
  intro s hs
  have hwires := wires_selectSeq (encode .select) hs
  have hexec : exec .select s = .next (runPrims (encode .select) selectSeq s) := rfl
  obtain ⟨tr, hrun⟩ := exec_control_spec (.inl rfl) hs hexec
  rw [hrun, hs.level_csN, hs.level_weN] at hwires
  rw [hrun] at hexec
  refine ⟨decode_encode .select, _, hexec, rfl, rfl, fun hsel => ?_, fun hsel => ?_⟩
  · rw [hwires, hsel]; rfl
  · rw [hwires, hsel]; rfl

/-- Settles O15: DESELECT moves CS_n and then WE_n where they were not there already, and with CS_n high nothing contends. -/
theorem deselectRaisesCsThenReleasesWe : Obligations.DeselectRaisesCsThenReleasesWe := by
  intro s hs
  have hwires := wires_deselectSeq (encode .deselect) hs
  have hexec : exec .deselect s = .next (runPrims (encode .deselect) deselectSeq s) := rfl
  obtain ⟨tr, hrun⟩ := exec_control_spec (.inr (.inl rfl)) hs hexec
  rw [hrun, hs.level_csN, hs.level_weN] at hwires
  rw [hrun] at hexec
  refine ⟨decode_encode .deselect, _, hexec, rfl, rfl, fun hsel => ?_, fun hsel => ?_⟩
  · rw [hwires, hsel]; rfl
  · rw [hwires, hsel]; rfl

end Sys2Proof.Machine
end

section
/-! PROOFS of the statements of 43_byte_sequencer.md: DELAY, READ and WRITE in every form, and the command cycle of a step. -/

namespace Sys2Proof.Machine

/-! ### DELAY -/

theorem FaultSet.insert_of_has {f : FaultSet} {c : FaultCode} (h : f.has c = true) : f.insert c = f := by
  rcases f with ⟨_, _, _, _⟩
  cases c <;> simp_all [FaultSet.has, FaultSet.insert]

/-- A fault that a consistent record holds is not recorded again (rules R28, R87). -/
theorem FaultRecord.raise_of_has {r : FaultRecord} {c : FaultCode} (hr : r.consistent = true) (h : r.faults.has c = true) (w : Word) :
    r.raise c w = r := by
  unfold FaultRecord.raise
  cases hfirst : r.first with
  | some d => simp only [FaultSet.insert_of_has h, ← hfirst]
  | none =>
    have hempty : r.faults = FaultSet.empty := by simp_all [FaultRecord.consistent]
    rw [hempty] at h
    cases c <;> cases h

/-- Between commands contention that holds has been recorded, so a check that finds it changes nothing (rules R40, R83). -/
theorem State.Inv.recordAfter_contended {s : State} (hs : s.Inv) (w : Word) : s.recordAfter s.pins.contended w = s.record := by
  rw [State.recordAfter]
  cases hc : s.pins.contended && s.params.contentionIsFault with
  | false => rfl
  | true =>
    obtain ⟨hcont, hfault⟩ := Bool.and_eq_true_iff.mp hc
    exact FaultRecord.raise_of_has (c := .busContention) hs.recordOk (hs.contentionRecorded hcont hfault) w

/-- Settles O13: DELAY is one `Settle()`, whose check of contention is all that can reach the record. -/
theorem delayOnlyWaits : Obligations.DelayOnlyWaits := by
  intro s hs
  have hwires : wires (runPrims (encode .delay) [.settle] s).trace = .settle :: wires s.trace := wires_settle _ s
  obtain ⟨tr, hrun⟩ := settle_spec (encode .delay) s hs.calm
  rw [hrun] at hwires
  refine ⟨decode_encode .delay, _, congrArg Host.Outcome.next hrun, rfl, hwires, fun hinv => ?_⟩
  have hrec : s.contentionRecord (encode .delay) = s.record := hinv.recordAfter_contended _
  rw [hrec]
  rfl

/-! ### READ -/

/-- The record a command leaves from pins that rest: its checks, then contention (rules R40, R86, R88). -/
theorem State.commandRecord_of_resting (i : Instr) {s : State} (hs : s.pins.Resting) :
    s.commandRecord i = (s.checked i).recordAfter (contends i s.pins) (encode i) := by
  rw [State.commandRecord, contendedIn_commandSeq i hs]
  rfl

/-- A READ that is not ready drives its address, samples the bus for its contention, and answers with a draw (rules R81, R88). -/
theorem exec_read_of_not_ready {s : State} (a : Addr) (hr : s.readReady = false) :
    exec (.read a) s = .next (respondDraw (sampleBusState (encode (.read a)) (s.driven (.read a)))) := by
  have hbad : (!s.pins.selected || s.pins.controllerDrives) = true := by
    rw [← Bool.not_not s.pins.controllerDrives, ← Bool.not_and]; exact congrArg not hr
  exact congrArg Host.Outcome.next (if_pos hbad)

/-- A READ that is not ready answers with the draw `k`, taken within the command (rule R81). -/
theorem exec_read_not_ready {s : State} (a : Addr) (hs : s.pins.Resting) (hr : s.readReady = false) :
    ∃ k tr, s.draws ≤ k ∧ exec (.read a) s = .next
      { s with
        pins := { s.pins with ser := a.getLsbD 0, oeN := false }
        regs := { s.regs with sr := a, al := a, rdata := Config.freeByte k }
        rspValid := true
        responses := s.responses ++ [Config.freeByte k]
        record := s.commandRecord (.read a)
        draws := k + 1
        trace := tr } := by
  have hrec := driven_contentionRecord (.read a) s
  obtain ⟨tr, hseq⟩ := readSeq_spec (encode (.read a)) a (s.checked (.read a)) hs
  have hrest : Pins.Resting { s.pins with ser := a.getLsbD 0, oeN := false } := ⟨hs.wePaired, hs.weHigh, hs.sclkLow, hs.rclkLow⟩
  change s.driven (.read a) = _ at hseq
  obtain ⟨tr', hsample⟩ := sampleBusState_calm (encode (.read a)) (s.driven (.read a)) (by rw [hseq]; exact hrest.calm)
  rw [exec_read_of_not_ready a hr, hsample, hrec, hseq]
  refine ⟨_, tr', ?_, rfl⟩
  split
  · exact Nat.le_succ _
  · exact le_rfl

/-- Settles O20: a READ that is ready answers with the cell; one that is not answers with a draw and records what its checks found. -/
theorem readReturnsTheCell : Obligations.ReadReturnsTheCell := by
  intro s a hs
  refine ⟨decode_encode (.read a), ?_⟩
  cases hr : s.readReady with
  | true =>
    obtain ⟨tr, hexec⟩ := exec_read_ready a hs hr
    exact ⟨_, hexec, rfl, fun _ => ⟨rfl, rfl, rfl⟩, nofun⟩
  | false =>
    obtain ⟨k, tr, hk, hexec⟩ := exec_read_not_ready a hs hr
    exact ⟨_, hexec, rfl, nofun, fun _ => ⟨⟨k, hk, Nat.lt_succ_self k, rfl⟩, State.commandRecord_of_resting (.read a) hs⟩⟩

/-! ### WRITE -/

/-- WRITE's strobe with OE_n = 1: while the chip is selected it stores the byte on the bus, a draw if nobody drives it
(rules R20, R37, R39). -/
theorem strobe_spec (w : Word) {s : State} (hs : s.pins.Resting) (ho : s.pins.oeN = true) :
    ∃ tr, runPrims w strobeSeq s =
      { s with
        mem := if s.pins.selected then s.mem.write s.regs.al (if s.pins.dir = .output then s.regs.dout else s.nextDraw) else s.mem
        draws := if s.pins.selected ∧ s.pins.dir = .input then s.draws + 1 else s.draws
        trace := tr } := by
  rw [hs.selected_eq]
  cases hcs : s.pins.csN with
  | false =>
    obtain ⟨tr, hrun⟩ := strobe_selected w s hs hcs ho
    refine ⟨tr, hrun.trans ?_⟩
    cases hdir : s.pins.dir <;> rfl
  | true => exact strobe_deselected w s hs hcs

/-- The checks of WRITE: NotSelected, then DirectionMismatch for DIR = In (rule R88). -/
theorem State.checked_write (a : Addr) (d : Byte) (s : State) :
    s.checked (.write a d) =
      raiseFaultIf (decide (s.pins.dir = .input)) .directionMismatch (encode (.write a d))
        (raiseFaultIf (!s.pins.selected) .notSelected (encode (.write a d)) s) := by
  have hdir : mismatch (.write a d) s.pins = decide (s.pins.dir = .input) := by
    cases hdir : s.pins.dir <;> simp [mismatch, Pins.controllerDrives, hdir]
  rw [State.checked, hdir]
  rfl

@[simp] theorem State.recordAfter_false (w : Word) (s : State) : s.recordAfter false w = s.record := rfl

/-- Everything WRITE does from pins that rest (rule R82). -/
theorem exec_write_spec {s : State} (a : Addr) (d : Byte) (hs : s.pins.Resting) :
    ∃ tr, exec (.write a d) s = .next
      { s with
        pins := { s.pins with ser := a.getLsbD 0, oeN := true }
        regs := { s.regs with sr := a, al := a, dout := d }
        mem := if s.pins.selected then s.mem.write a (if s.pins.dir = .output then d else s.nextDraw) else s.mem
        record := (s.checked (.write a d)).recordAfter s.pins.contended (encode (.write a d))
        draws := if s.pins.selected ∧ s.pins.dir = .input then s.draws + 1 else s.draws
        trace := tr } := by
  obtain ⟨tr, hsent⟩ := writeAddressData_spec (encode (.write a d)) a d (s.checked (.write a d)) hs
  have hexec : exec (.write a d) s = .next (runPrims (encode (.write a d)) strobeSeq
      (runPrims (encode (.write a d)) (setAddress a false ++ [.driveData d, .settle]) (s.checked (.write a d)))) :=
    congrArg Host.Outcome.next (runPrims_append _ _ _ _)
  rw [hsent] at hexec
  obtain ⟨tr', hstrobe⟩ := strobe_spec (encode (.write a d)) (s := { s.checked (.write a d) with
      pins := { s.pins with ser := a.getLsbD 0, oeN := true }
      regs := { s.regs with sr := a, al := a, dout := d }
      record := (s.checked (.write a d)).recordAfter s.pins.contended (encode (.write a d))
      trace := tr }) ⟨hs.wePaired, hs.weHigh, hs.sclkLow, hs.rclkLow⟩ rfl
  exact ⟨tr', hexec.trans (congrArg Host.Outcome.next hstrobe)⟩

/-- A deselected chip drives nothing, so nothing contends (rules R27, R40). -/
theorem Pins.Resting.contended_of_deselected {p : Pins} (h : p.Resting) (hsel : p.selected = false) : p.contended = false := by
  rw [Pins.contended, h.sramDrives_eq, hsel, Bool.false_and, Bool.and_false]

/-- Settles O21: the three forms of WRITE by the chip's selection and the direction; the commit is at the operand address alone. -/
theorem writeStoresTheByte : Obligations.WriteStoresTheByte := by
  intro s a d hs
  obtain ⟨tr, hexec⟩ := exec_write_spec a d hs
  rw [State.checked_write] at hexec
  refine ⟨decode_encode (.write a d), _, hexec, rfl, fun hw => ?_, fun hsel hdir => ?_, fun hsel => ?_,
    fun hm => ⟨fun hw => ?_, fun x hx => ?_⟩⟩
  · obtain ⟨hsel, hdir⟩ := s.writeReady_iff.mp hw
    simp [hsel, hdir]
  · refine ⟨⟨s.nextDraw, ⟨s.draws, le_rfl, ?_, rfl⟩, ?_⟩, ?_⟩ <;> simp [hsel, hdir, Pins.contended_input hdir]
  · simp [hsel, hs.contended_of_deselected hsel]
  · rw [exec_write_mem_ready hs hw hexec]
    exact Memory.read_write_same hm a d
  · obtain ⟨hother, -⟩ := onlyWriteStores s _ _ hs hm hexec
    exact hother x (by simpa using hx.symm)

/-! ### The command cycle -/

/-- The table's number of a word names the word (rule R57). -/
theorem tableWord_toNat (w : Word) : tableWord 32 w.toNat = w := by
  rw [tableWord, Nat.mod_eq_of_lt w.isLt, BitVec.ofNat_toNat, BitVec.setWidth_eq]

/-- Settles O38: the step of a decoded and of an Illegal word, acceptance and completion, and the word that `withFetchWord` holds. -/
theorem stepRunsTheDecodedInstruction : Obligations.StepRunsTheDecodedInstruction := by
  refine ⟨fun _ _ _ _ hq hin hd => step_command hq hin hd, fun _ _ _ _ hq hin hd => step_illegal hq hin hd,
    fun _ _ => ⟨rfl, rfl⟩, fun s t h => ?_, fun s i => ?_⟩
  · injection h with h
    subst h
    exact ⟨rfl, rfl⟩
  · rw [State.withFetchWord, tableWord_toNat]
    exact step_command (s := offerWord (encode i) s) rfl rfl (decode_encode i)

/-- Settles O40: with SEQ = Busy only a reset is taken. -/
theorem busyBetweenStepsStops : Obligations.BusyBetweenStepsStops := by
  intro s hq hreset
  cases hin : s.inputs with
  | nil => simp only [step, hin, hq]
  | cons x rest =>
    cases x with
    | reset d => exact absurd hin (hreset d rest)
    | command | extWrite => simp only [step, hin, hq]

end Sys2Proof.Machine
end

section
/-! PROOFS of the statements of 60_exceptions.md: what `raise Fault` does to the record, the order in which a command records its faults,
and that no step from SEQ = Idle traps. -/

namespace Sys2Proof.Machine

/-! ### `raise Fault` -/

theorem FaultRecord.has_raise (r : FaultRecord) (c : FaultCode) (w : Word) (c' : FaultCode) :
    (r.raise c w).faults.has c' = (decide (c' = c) || r.faults.has c') := by
  rw [FaultRecord.raise_faults, FaultSet.has_insert]

theorem FaultRecord.has_raiseIf (r : FaultRecord) (b : Bool) (c : FaultCode) (w : Word) (c' : FaultCode) :
    (r.raiseIf b c w).faults.has c' = (b && decide (c' = c) || r.faults.has c') := by
  cases b with
  | false => rfl
  | true => exact r.has_raise c w c'

theorem FaultRecord.raise_of_first_none {r : FaultRecord} (h : r.first = none) (c : FaultCode) (w : Word) :
    r.raise c w = { faults := r.faults.insert c, first := some c, cmd := some w } := by
  simp only [FaultRecord.raise, h]

theorem FaultRecord.raise_first (r : FaultRecord) (c : FaultCode) (w : Word) : (r.raise c w).first = r.first.or (some c) := by
  unfold FaultRecord.raise
  cases r.first with
  | none | some d => rfl

/-- Settles O26: `raise Fault` extends the record by its code, and a first fault is written once. -/
theorem raiseWritesTheRecordOnly : Obligations.RaiseWritesTheRecordOnly := by
  refine fun s c w => ⟨rfl, s.record.has_raise c w, fun hnone => ?_, (s.record.extends_raise c w).first⟩
  rw [raiseFault_record, FaultRecord.raise_of_first_none hnone]
  exact ⟨rfl, rfl⟩

/-! ### The faults of one command, in the order of its checks -/

/-- The record after the checks for the codes `cs`, made in that order by the command `w` alone: only they are in it, and the first of
them that is in it is FIRST_FAULT (rules R87, R88). -/
structure FaultRecord.InOrder (r : FaultRecord) (cs : List FaultCode) (w : Word) : Prop where
  mem : ∀ c, r.faults.has c = true → c ∈ cs
  first : r.first = cs.find? fun c => r.faults.has c
  cmd : r.cmd = r.first.map fun _ => w

theorem FaultRecord.has_empty (c : FaultCode) : FaultRecord.empty.faults.has c = false := by
  cases c <;> rfl

theorem FaultRecord.inOrder_empty (cs : List FaultCode) (w : Word) : FaultRecord.empty.InOrder cs w where
  mem c h := absurd ((FaultRecord.has_empty c).symm.trans h) Bool.false_ne_true
  first := (List.find?_eq_none.mpr fun c _ => Bool.not_eq_true _ ▸ FaultRecord.has_empty c).symm
  cmd := rfl

/-- A check that does not find its code leaves the record in order, with that code last. -/
theorem FaultRecord.InOrder.append {r : FaultRecord} {cs : List FaultCode} {w : Word} (h : r.InOrder cs w) {c : FaultCode}
    (hc : c ∉ cs) : r.InOrder (cs ++ [c]) w where
  mem c' hhas := List.mem_append_left _ (h.mem c' hhas)
  first := by
    have hnot : r.faults.has c = false := Bool.eq_false_iff.mpr fun hhas => hc (h.mem c hhas)
    rw [List.find?_append, ← h.first, List.find?_singleton, hnot]
    exact (Option.or_none).symm
  cmd := h.cmd

/-- A code raised by one more check comes last in the order: it is FIRST_FAULT only where no earlier code is in the record. -/
theorem FaultRecord.InOrder.raise {r : FaultRecord} {cs : List FaultCode} {w : Word} (h : r.InOrder cs w) {c : FaultCode}
    (hc : c ∉ cs) : (r.raise c w).InOrder (cs ++ [c]) w := by
  have hfind : (cs ++ [c]).find? (fun c' => (r.raise c w).faults.has c') = r.first.or (some c) := by
    have hearlier : cs.find? (fun c' => (r.raise c w).faults.has c') = r.first := by
      rw [h.first]
      refine List.find?_congr fun c' hc' => ?_
      rw [FaultRecord.has_raise, decide_eq_false (ne_of_mem_of_not_mem hc' hc), Bool.false_or]
    rw [List.find?_append, hearlier, List.find?_singleton, FaultRecord.has_raise, decide_eq_true rfl, Bool.true_or, if_pos rfl]
  have hmem (c' : FaultCode) (hhas : (r.raise c w).faults.has c' = true) : c' ∈ cs ++ [c] := by
    rw [FaultRecord.has_raise, Bool.or_eq_true, decide_eq_true_iff] at hhas
    rw [List.mem_append, List.mem_singleton]
    exact hhas.symm.imp_left (h.mem c')
  refine ⟨hmem, by rw [hfind, FaultRecord.raise_first], ?_⟩
  cases hfirst : r.first with
  | none =>
    rw [FaultRecord.raise_of_first_none hfirst]
    rfl
  | some d =>
    obtain ⟨hf, hw⟩ := (r.extends_raise c w).first (by simp [hfirst])
    rw [hw, hf, h.cmd]

theorem FaultRecord.InOrder.raiseIf {r : FaultRecord} {cs : List FaultCode} {w : Word} (h : r.InOrder cs w) (b : Bool)
    {c : FaultCode} (hc : c ∉ cs) : (r.raiseIf b c w).InOrder (cs ++ [c]) w := by
  cases b with
  | false => exact h.append hc
  | true => exact h.raise hc

/-- The record a command leaves from an empty one and pins that rest, as the checks that made it. -/
theorem exec_record_of_empty {i : Instr} {s t : State} (hs : s.pins.Resting) (hr : s.record = FaultRecord.empty)
    (h : exec i s = .next t) :
    t.record = ((FaultRecord.empty.raiseIf (needsSelect i && !s.pins.selected) .notSelected (encode i)).raiseIf
      (mismatch i s.pins) .directionMismatch (encode i)).raiseIf
      (contends i s.pins && s.params.contentionIsFault) .busContention (encode i) := by
  rw [(exec_frame h).record, State.commandRecord, contendedIn_commandSeq i hs, State.checked, raiseFaultIf_record,
    raiseFaultIf_record, hr]

/-- Settles O25: a command makes its checks in the order of rule R88, each for a code of its own. -/
theorem faultsAreRecordedInOrder : Obligations.FaultsAreRecordedInOrder := by
  intro s t i hs hr h
  have hrec := exec_record_of_empty hs hr h
  have horder : t.record.InOrder [.illegalCommand, .notSelected, .directionMismatch, .busContention] (encode i) := by
    rw [hrec]
    exact (((FaultRecord.inOrder_empty [.illegalCommand] _).raiseIf _ (by decide)).raiseIf _ (by decide)).raiseIf _ (by decide)
  have hhas (c : FaultCode) : t.record.faults.has c =
      ((contends i s.pins && s.params.contentionIsFault) && decide (c = .busContention) ||
        (mismatch i s.pins && decide (c = .directionMismatch) ||
          (needsSelect i && !s.pins.selected) && decide (c = .notSelected))) := by
    simp only [hrec, FaultRecord.has_raiseIf, FaultRecord.has_empty, Bool.or_false]
  refine ⟨(hhas .illegalCommand).trans ?_, (hhas .notSelected).trans ?_, (hhas .directionMismatch).trans ?_,
    (hhas .busContention).trans ?_, horder.first, horder.cmd⟩ <;> simp

/-! ### Nothing traps -/

/-- Every command runs to its end, whatever it records (rule R90). -/
theorem exec_total (i : Instr) (s : State) : ∃ t, exec i s = .next t := by
  cases i <;> exact ⟨_, rfl⟩

/-- Settles O39: each input of the outside world, and a missing one, has a next state; a command ends with SEQ = Idle. -/
theorem everyStepFromIdleAnswersNext : Obligations.EveryStepFromIdleAnswersNext := by
  refine fun s hq => ⟨?_, step_waitForHost hq⟩
  cases hin : s.inputs with
  | nil => exact ⟨_, step_waitForHost hq hin, hq⟩
  | cons x rest =>
    cases x with
    | reset d => exact ⟨_, step_reset hin, rfl⟩
    | extWrite a v =>
      obtain ⟨m, hext, -⟩ := extWrite_eq a v { s with inputs := rest }
      exact ⟨_, step_extWrite hq hin, by rw [hext]; exact hq⟩
    | command w =>
      cases hd : decode w with
      | illegal why => exact ⟨_, step_illegal hq hin hd, rfl⟩
      | instr i =>
        obtain ⟨t, hexec⟩ := exec_total i (accept rest s)
        exact ⟨{ t with seq := .idle }, by rw [step_command hq hin hd, hexec]; rfl, rfl⟩

end Sys2Proof.Machine
end

section
/-! PROOFS of the statements of 70_reset_and_hazards.md: the settles of every command, and what may change once a run has ended. -/

namespace Sys2Proof.Machine

/-! ### The settles of a command -/

theorem count_settle_shiftBits (bs : List Bool) : (bs.flatMap shiftBit).count .settle = 3 * bs.length := by
  induction bs with
  | nil => rfl
  | cons b bs ih =>
    have hbit : (shiftBit b).count .settle = 3 := rfl
    rw [List.flatMap_cons, List.count_append, ih, hbit, List.length_cons]
    omega

/-- Sixteen bits, the latch pulse and OE_n (rule R106). -/
theorem count_settle_setAddress (a : Addr) (oe : Bool) : (setAddress a oe).count .settle = 52 := by
  have hlatch : latchPulse.count .settle = 3 := by decide
  have hoe : [Prim.drive .oeN (!oe), .settle].count .settle = 1 := rfl
  rw [setAddress_eq, List.count_append, List.count_append, count_settle_shiftBits, hlatch, hoe]
  rfl

/-- A sample, a draw and a response take no settle, so a command takes those of its primitives. -/
theorem exec_settleCount {i : Instr} {s t : State} (h : exec i s = .next t) :
    settleCount t.trace = settleCount s.trace + (commandSeq i).count .settle :=
  (settleCount_of_wires (es := []) (exec_wires h)).trans (settleCount_runPrims (encode i) (commandSeq i) (s.checked i))

/-- The least duration follows the settles, since no command changes T_SETTLE (rules R8, R106). -/
theorem exec_leastDuration {i : Instr} {s t : State} {n : Nat} (h : exec i s = .next t)
    (hn : settleCount t.trace = settleCount s.trace + n) : t.leastDuration = s.leastDuration + n * s.params.tSettle := by
  rw [State.leastDuration, hn, (exec_frame h).params, Nat.add_mul, State.leastDuration]

/-- Settles O35: a command takes the settles its primitives list, those of `SetAddress` among them. -/
theorem settleCountsPerCommand : Obligations.SettleCountsPerCommand := by
  intro s t i h n
  have hseq : (commandSeq i).count .settle = n := by
    cases i with
    | delay | select | deselect | dirIn | dirOut | sample => rfl
    | setAddr a oe => exact count_settle_setAddress a oe
    | read a => rw [commandSeq, readSeq, List.count_append, count_settle_setAddress]; rfl
    | write a d =>
      rw [commandSeq, writeSeq, List.count_append, List.count_append, count_settle_setAddress]; rfl
  have hn := hseq ▸ exec_settleCount h
  exact ⟨hn, exec_leastDuration h hn⟩

/-! ### The end of a run -/

theorem Input.isCommand_iff (x : Input) : x.isCommand = true ↔ ∃ w, x = .command w := by
  cases x <;> simp [Input.isCommand]

theorem State.ended_iff (s : State) : s.ended = true ↔ s.seq = .idle ∧ ∀ w, Input.command w ∉ s.inputs := by
  have hword : s.inputs.any Input.isCommand = true ↔ ∃ w, Input.command w ∈ s.inputs := by
    simp [List.any_eq_true, Input.isCommand_iff]
  rw [State.ended, Bool.and_eq_true, Bool.not_eq_true', ← Bool.not_eq_true, hword, not_exists, State.cmdReady,
    decide_eq_true_iff, and_comm]

theorem State.final_iff (s : State) : s.final = true ↔ s.ended = true ∧ s.record.faults = FaultSet.empty := by
  rw [State.final, Bool.and_eq_true, decide_eq_true_iff]

/-- Once a run has ended, a step that is no reset waits for the host or is the external master's (rules R46, R98). -/
theorem step_cases_of_ended {s t : State} (he : s.ended = true) (hreset : ∀ d rest, s.inputs ≠ .reset d :: rest)
    (h : step s = .next t) :
    (s.inputs = [] ∧ t = waitForHost s) ∨
    ∃ a v rest, s.inputs = .extWrite a v :: rest ∧ t = extWrite a v { s with inputs := rest } := by
  obtain ⟨-, hno⟩ := s.ended_iff.mp he
  have hword {w : Word} {rest : List Input} (hin : s.inputs = .command w :: rest) : False :=
    hno w (hin ▸ List.mem_cons_self)
  rcases step_cases h with ⟨d, rest, hin, -⟩ | ⟨-, hwait | hext | ⟨w, rest, why, hin, -⟩ | ⟨w, rest, i, u, hin, -⟩⟩
  · exact absurd hin (hreset d rest)
  · exact .inl hwait
  · exact .inr hext
  · exact (hword hin).elim
  · exact (hword hin).elim

/-- Such a step touches RSP_VALID, M and the inputs, of which it takes at most the first. -/
theorem step_eq_of_ended {s t : State} (he : s.ended = true) (hreset : ∀ d rest, s.inputs ≠ .reset d :: rest)
    (h : step s = .next t) : t = { s with rspValid := t.rspValid, mem := t.mem, inputs := s.inputs.tail } := by
  rcases step_cases_of_ended he hreset h with ⟨hin, rfl⟩ | ⟨a, v, rest, hin, rfl⟩
  · rw [hin]
    exact congrArg (fun xs => { waitForHost s with inputs := xs }) hin
  · obtain ⟨m, heq, -⟩ := extWrite_eq a v { s with inputs := rest }
    rw [heq, hin]
    rfl

/-- The external master's step changes M only where it may step, and then by its own write (rule R46). -/
theorem extWrite_mem_of_ne {a : Addr} {v : Byte} {s : State} (hne : (extWrite a v s).mem ≠ s.mem) :
    s.params.externalMaster = true ∧ s.pins.csN = true ∧ (extWrite a v s).mem = s.mem.write a v := by
  by_cases hmay : s.externalMasterMayStep = true
  · obtain ⟨hext, hcs, -⟩ := s.externalMasterMayStep_iff.mp hmay
    exact ⟨hext, hcs, by rw [extWrite, if_pos hmay]⟩
  · exact absurd (by rw [extWrite, if_neg hmay]) hne

/-- Settles O43: after the end no word is left to run, so a step waits or lets the external master write to M. -/
theorem endedRunWaitsForTheHost : Obligations.EndedRunWaitsForTheHost := by
  refine ⟨State.ended_iff, State.final_iff, fun s t he hreset h => ?_⟩
  obtain ⟨hidle, hno⟩ := s.ended_iff.mp he
  have heq := step_eq_of_ended he hreset h
  have hmem (hne : t.mem ≠ s.mem) : ∃ a v rest, s.inputs = .extWrite a v :: rest ∧ s.params.externalMaster = true ∧
      s.pins.csN = true ∧ t.mem = s.mem.write a v := by
    rcases step_cases_of_ended he hreset h with ⟨-, rfl⟩ | ⟨a, v, rest, hin, rfl⟩
    · exact absurd rfl hne
    · exact ⟨a, v, rest, hin, extWrite_mem_of_ne hne⟩
  have hended : t.ended = true := by
    rw [heq]
    exact (State.ended_iff _).mpr ⟨hidle, fun w hw => hno w (List.mem_of_mem_tail hw)⟩
  have hrec : t.record = s.record := by rw [heq]
  have hfinal : t.final = s.final := by rw [State.final, State.final, hended, he, hrec]
  refine ⟨hended, hfinal, ?_, ?_, hrec, ?_, ?_, ?_, ?_, hmem⟩ <;> rw [heq]

end Sys2Proof.Machine
end
